-- ==== Sys2Proof/Word.lean ====
section
/-! DEFINITION. Word.lean: the two widths of the machine (spec/00_scope.md R5, R6). -/

namespace Sys2Proof

/-- `DATA_WIDTH`: a register `a`, `x`, `y`, `sp`, a memory byte, an opcode byte (R5, R6). -/
abbrev Byte := BitVec 8

/-- `ADDR_WIDTH`: `pc`, an address, a 16-bit word (R5, R6). -/
abbrev Word := BitVec 16

end Sys2Proof
end

