-- ==== Sys2Proof/Config.lean ====
section
/-! DEFINITION. Config.lean: the constants an implementation fixes (spec/00_scope.md R5). The machine has
no free value: spec/93_implementation_defined.md, "nothing in this machine is a free draw". The opcode
table, a constant too, stands in Decode.lean. -/

namespace Sys2Proof

/-- `MEM_SIZE`: the bytes of the one flat address space (R5, R30). -/
def Config.memSize : Nat := 65536

/-- `RESET_PC`: loaded into `pc` as a constant, no vector is read (R5, R200). -/
def Config.resetPc : Word := 0xFFFC

/-- `RESET_SP` (R5, R200). -/
def Config.resetSp : Byte := 0xFD

/-- `STACK_PAGE_OFFSET`: what is added to the zero-extended `sp` to make a stack address; zero here,
unlike the 6502 family (R5, R12). -/
def Config.stackPageOffset : Word := 0

/-- The one address at which a word access is fatal, `WORD_AT_FFFF = fatal` (R5, R35; log entry 3). -/
def Config.lastAddress : Word := 0xFFFF

end Sys2Proof
end

