-- ==== Sys2Proof/Syntax.lean ====
section
/-! DEFINITION. Syntax.lean: operations, addressing modes, registers, formats, and the instruction set
(spec/30_encoding.md R50 to R55, spec/40_addressing.md R85). -/

namespace Sys2Proof

/-- The source's "mnemonic-family" (R9, R150). -/
inductive Operation where
  | load | store | jsr
deriving DecidableEq, Repr

/-- The nine addressing modes, a closed enumeration (R85). -/
inductive Mode where
  | immediate | zeroPage | zeroPageX | zeroPageY | absolute | absoluteX | absoluteY | indirectX | indirectY
deriving DecidableEq, Repr

/-- The registers a load or a store can name (R13, R51). -/
inductive Reg where
  | a | x | y
deriving DecidableEq, Repr

/-- The seven status flags (R15). -/
inductive Flag where
  | c | z | i | d | b | v | n
deriving DecidableEq, Repr

/-- The two instruction formats (R50). -/
inductive Format where
  | opD8 | opA16
deriving DecidableEq, Repr

/-- The length of an instruction in bytes, its opcode byte included (R50, R54). -/
def Format.length : Format → Nat
  | .opD8 => 2
  | .opA16 => 3

/-- The format of each mode (R54). -/
def Mode.format : Mode → Format
  | .immediate => .opD8
  | .zeroPage => .opD8
  | .zeroPageX => .opD8
  | .zeroPageY => .opD8
  | .absolute => .opA16
  | .absoluteX => .opA16
  | .absoluteY => .opA16
  | .indirectX => .opD8
  | .indirectY => .opD8

/-- An operand that the Resolver turns into an address: one of the eight modes it is defined for (R70),
with the operand byte or word. Immediate is not among them (R73). -/
inductive AddrForm where
  | zeroPage (d : Byte)
  | zeroPageX (d : Byte)
  | zeroPageY (d : Byte)
  | absolute (w : Word)
  | absoluteX (w : Word)
  | absoluteY (w : Word)
  | indirectX (d : Byte)
  | indirectY (d : Byte)
deriving DecidableEq, Repr

/-- The mode of an address operand. -/
def AddrForm.mode : AddrForm → Mode
  | .zeroPage _ => .zeroPage
  | .zeroPageX _ => .zeroPageX
  | .zeroPageY _ => .zeroPageY
  | .absolute _ => .absolute
  | .absoluteX _ => .absoluteX
  | .absoluteY _ => .absoluteY
  | .indirectX _ => .indirectX
  | .indirectY _ => .indirectY

/-- The instruction set: one constructor per row of spec/opcode_table.json, in the table's order (R55). A
`Byte` operand is the `d8` of format `OP_D8`, a `Word` operand the `a16` of format `OP_A16` (R50). -/
inductive Instr where
  /-- `LDA #$nn` (R92). -/
  | ldaImm (d : Byte)
  /-- `LDA $nn` (R93). -/
  | ldaZp (d : Byte)
  /-- `LDA $nn,X` (R94). -/
  | ldaZpX (d : Byte)
  /-- `LDA $nnnn` (R95). -/
  | ldaAbs (w : Word)
  /-- `LDA $nnnn,X` (R96). -/
  | ldaAbsX (w : Word)
  /-- `LDA ($nn,X)` (R97). -/
  | ldaIndX (d : Byte)
  /-- `LDA ($nn),Y` (R98). -/
  | ldaIndY (d : Byte)
  /-- `LDX #$nn` (R99). -/
  | ldxImm (d : Byte)
  /-- `LDX $nn` (R100). -/
  | ldxZp (d : Byte)
  /-- `LDX $nn,Y` (R101). -/
  | ldxZpY (d : Byte)
  /-- `LDX $nnnn` (R102). -/
  | ldxAbs (w : Word)
  /-- `LDX $nnnn,Y` (R103). -/
  | ldxAbsY (w : Word)
  /-- `LDY #$nn` (R104). -/
  | ldyImm (d : Byte)
  /-- `LDY $nn` (R105). -/
  | ldyZp (d : Byte)
  /-- `LDY $nn,X` (R106). -/
  | ldyZpX (d : Byte)
  /-- `LDY $nnnn` (R107). -/
  | ldyAbs (w : Word)
  /-- `LDY $nnnn,X` (R108). -/
  | ldyAbsX (w : Word)
  /-- `STA $nn` (R122). -/
  | staZp (d : Byte)
  /-- `STA $nn,X` (R123). -/
  | staZpX (d : Byte)
  /-- `STA $nnnn` (R124). -/
  | staAbs (w : Word)
  /-- `STA $nnnn,X` (R125). -/
  | staAbsX (w : Word)
  /-- `STA ($nn,X)` (R126). -/
  | staIndX (d : Byte)
  /-- `STA ($nn),Y` (R127). -/
  | staIndY (d : Byte)
  /-- `STX $nn` (R128). -/
  | stxZp (d : Byte)
  /-- `STX $nn,Y` (R129). -/
  | stxZpY (d : Byte)
  /-- `STX $nnnn` (R130). -/
  | stxAbs (w : Word)
  /-- `STY $nn` (R131). -/
  | styZp (d : Byte)
  /-- `STY $nn,X` (R132). -/
  | styZpX (d : Byte)
  /-- `STY $nnnn` (R133). -/
  | styAbs (w : Word)
  /-- `JSR $nnnn` (R140). -/
  | jsr (w : Word)
deriving DecidableEq, Repr

/-- The operation of an instruction (the mnemonic, R51). -/
def Instr.operation : Instr → Operation
  | .ldaImm _ | .ldaZp _ | .ldaZpX _ | .ldaAbs _ | .ldaAbsX _ | .ldaIndX _ | .ldaIndY _ => .load
  | .ldxImm _ | .ldxZp _ | .ldxZpY _ | .ldxAbs _ | .ldxAbsY _ => .load
  | .ldyImm _ | .ldyZp _ | .ldyZpX _ | .ldyAbs _ | .ldyAbsX _ => .load
  | .staZp _ | .staZpX _ | .staAbs _ | .staAbsX _ | .staIndX _ | .staIndY _ => .store
  | .stxZp _ | .stxZpY _ | .stxAbs _ => .store
  | .styZp _ | .styZpX _ | .styAbs _ => .store
  | .jsr _ => .jsr

/-- The addressing mode of an instruction (R55). -/
def Instr.mode : Instr → Mode
  | .ldaImm _ | .ldxImm _ | .ldyImm _ => .immediate
  | .ldaZp _ | .ldxZp _ | .ldyZp _ | .staZp _ | .stxZp _ | .styZp _ => .zeroPage
  | .ldaZpX _ | .ldyZpX _ | .staZpX _ | .styZpX _ => .zeroPageX
  | .ldxZpY _ | .stxZpY _ => .zeroPageY
  | .ldaAbs _ | .ldxAbs _ | .ldyAbs _ | .staAbs _ | .stxAbs _ | .styAbs _ | .jsr _ => .absolute
  | .ldaAbsX _ | .ldyAbsX _ | .staAbsX _ => .absoluteX
  | .ldxAbsY _ => .absoluteY
  | .ldaIndX _ | .staIndX _ => .indirectX
  | .ldaIndY _ | .staIndY _ => .indirectY

/-- The target register: written by a load, read by a store, absent for `JSR` (R9, R51). -/
def Instr.register : Instr → Option Reg
  | .ldaImm _ | .ldaZp _ | .ldaZpX _ | .ldaAbs _ | .ldaAbsX _ | .ldaIndX _ | .ldaIndY _ => some .a
  | .ldxImm _ | .ldxZp _ | .ldxZpY _ | .ldxAbs _ | .ldxAbsY _ => some .x
  | .ldyImm _ | .ldyZp _ | .ldyZpX _ | .ldyAbs _ | .ldyAbsX _ => some .y
  | .staZp _ | .staZpX _ | .staAbs _ | .staAbsX _ | .staIndX _ | .staIndY _ => some .a
  | .stxZp _ | .stxZpY _ | .stxAbs _ => some .x
  | .styZp _ | .styZpX _ | .styAbs _ => some .y
  | .jsr _ => none

/-- The length in bytes, decided by the mode (R54). -/
def Instr.length (i : Instr) : Nat := i.mode.format.length

/-- One row of the Opcode Table: a byte and the triple it names (R51, R55; spec/90_conflicts.md C6). -/
structure OpcodeEntry where
  opcode : Byte
  operation : Operation
  mode : Mode
  register : Option Reg
deriving DecidableEq, Repr

end Sys2Proof
end

