-- ==== Sys2Proof/WellFormed.lean ====
section
/-! DEFINITION. WellFormed.lean: which register goes with which mode, and what makes an opcode table well
formed (spec/40_addressing.md R83, spec/30_encoding.md R58). -/

namespace Sys2Proof

/-- The register half of `Legal` for a load or a store: "ZeroPageY and AbsoluteY are valid only when the
target register is X; ZeroPageX and AbsoluteX are valid only when the target register is Y or A;
IndirectX/IndirectY are valid only when the target register is A"; the modes the sentence does not
name take any register (R83). -/
def registerAllowed : Mode → Reg → Bool
  | .immediate, _ => true
  | .zeroPage, _ => true
  | .zeroPageX, r => r != .x
  | .zeroPageY, r => r == .x
  | .absolute, _ => true
  | .absoluteX, r => r != .x
  | .absoluteY, r => r == .x
  | .indirectX, r => r == .a
  | .indirectY, r => r == .a

/-- `Legal(operation, mode, register)` (R83). Stores never use Immediate; `Jsr` is legal with Absolute
only and has no register; a load or a store without a register is not a triple of the table. -/
def legal (o : Operation) (m : Mode) (r : Option Reg) : Bool :=
  match o, r with
  | .load, some r => registerAllowed m r
  | .store, some r => m != .immediate && registerAllowed m r
  | .jsr, none => m == .absolute
  | .load, none => false
  | .store, none => false
  | .jsr, some _ => false

/-- An instruction is well formed if its triple is legal (R58, R83). Operand fields are bit vectors of
their exact width, so there is no other way to be ill formed. -/
def Instr.wellFormed (i : Instr) : Bool := legal i.operation i.mode i.register

/-- A row of an opcode table is well formed if its triple is legal (R58). -/
def OpcodeEntry.wellFormed (e : OpcodeEntry) : Bool := legal e.operation e.mode e.register

/-- A table is well formed if every row is and no byte has two rows: it is a mapping from the byte (R51,
R58). -/
def tableWellFormed (t : List OpcodeEntry) : Bool :=
  t.all OpcodeEntry.wellFormed && decide (t.map OpcodeEntry.opcode).Nodup

end Sys2Proof
end

