-- ==== Sys2Proof/Decode.lean ====
section
/-! DEFINITION. Decode.lean: byte order helpers, the Opcode Table, the decoder and the encoder
(spec/30_encoding.md). The opcode bytes are the spec's decision D1: PRESUMED, unsafe
(log entry 1). -/

namespace Sys2Proof

/-! ## Bytes and words -/

/-- `zext_16(b)` (R8). -/
def zext16 (b : Byte) : Word := b.setWidth 16

/-- `v[7:0]` (R6). -/
def loByte (v : Word) : Byte := v.setWidth 8

/-- `v[15:8]` (R6). -/
def hiByte (v : Word) : Byte := v.extractLsb' 8 8

/-- The word whose low byte is `lo` and whose high byte is `hi`: `{hi, lo}` (R6, R36). -/
def wordOf (lo hi : Byte) : Word := hi ++ lo

/-! ## The Opcode Table -/

/-- The 17 load rows of the Opcode Table (R55). -/
def loadRows : List OpcodeEntry :=
  [ ⟨0xA9, .load, .immediate, some .a⟩,
    ⟨0xA5, .load, .zeroPage, some .a⟩,
    ⟨0xB5, .load, .zeroPageX, some .a⟩,
    ⟨0xAD, .load, .absolute, some .a⟩,
    ⟨0xBD, .load, .absoluteX, some .a⟩,
    ⟨0xA1, .load, .indirectX, some .a⟩,
    ⟨0xB1, .load, .indirectY, some .a⟩,
    ⟨0xA2, .load, .immediate, some .x⟩,
    ⟨0xA6, .load, .zeroPage, some .x⟩,
    ⟨0xB6, .load, .zeroPageY, some .x⟩,
    ⟨0xAE, .load, .absolute, some .x⟩,
    ⟨0xBE, .load, .absoluteY, some .x⟩,
    ⟨0xA0, .load, .immediate, some .y⟩,
    ⟨0xA4, .load, .zeroPage, some .y⟩,
    ⟨0xB4, .load, .zeroPageX, some .y⟩,
    ⟨0xAC, .load, .absolute, some .y⟩,
    ⟨0xBC, .load, .absoluteX, some .y⟩ ]

/-- The 12 store rows of the Opcode Table (R55). -/
def storeRows : List OpcodeEntry :=
  [ ⟨0x85, .store, .zeroPage, some .a⟩,
    ⟨0x95, .store, .zeroPageX, some .a⟩,
    ⟨0x8D, .store, .absolute, some .a⟩,
    ⟨0x9D, .store, .absoluteX, some .a⟩,
    ⟨0x81, .store, .indirectX, some .a⟩,
    ⟨0x91, .store, .indirectY, some .a⟩,
    ⟨0x86, .store, .zeroPage, some .x⟩,
    ⟨0x96, .store, .zeroPageY, some .x⟩,
    ⟨0x8E, .store, .absolute, some .x⟩,
    ⟨0x84, .store, .zeroPage, some .y⟩,
    ⟨0x94, .store, .zeroPageX, some .y⟩,
    ⟨0x8C, .store, .absolute, some .y⟩ ]

/-- The `JSR` row of the Opcode Table (R55). -/
def jsrRows : List OpcodeEntry := [⟨0x20, .jsr, .absolute, none⟩]

/-- `OPCODE_TABLE`: 30 of the 256 bytes have a row, the other 226 are unknown opcodes (R55, R56). -/
def opcodeTable : List OpcodeEntry := loadRows ++ storeRows ++ jsrRows

/-- The row of an opcode byte, found by all eight of its bits (R51). -/
def lookup (t : List OpcodeEntry) (op : Byte) : Option OpcodeEntry :=
  t.find? fun e => e.opcode == op

/-! ## Decoding -/

/-- Why an opcode byte names no instruction (R56, R58). -/
inductive OpcodeError where
  /-- No row of the table has the byte (R56). -/
  | unknownOpcode (op : Byte)
  /-- The row's triple is illegal, or is not a row of R55: the table is malformed (R58). -/
  | illegalCombination (op : Byte)
deriving DecidableEq, Repr

/-- Why a list of bytes begins with no instruction. -/
inductive DecodeError where
  /-- The list ends before the instruction does. -/
  | truncated
  /-- The first byte names no instruction. -/
  | opcode (e : OpcodeError)
deriving DecidableEq, Repr

/-- The instruction of a triple, given the operand bytes as one little-endian word; an `OP_D8` operand is
the low byte (R52, R53). The two legal triples without an opcode byte have no instruction (R83, log
entry 2). -/
def assemble (o : Operation) (m : Mode) (r : Option Reg) (w : Word) : Option Instr :=
  match o, r, m with
  | .load, some .a, .immediate => some (.ldaImm (loByte w))
  | .load, some .a, .zeroPage => some (.ldaZp (loByte w))
  | .load, some .a, .zeroPageX => some (.ldaZpX (loByte w))
  | .load, some .a, .absolute => some (.ldaAbs w)
  | .load, some .a, .absoluteX => some (.ldaAbsX w)
  | .load, some .a, .indirectX => some (.ldaIndX (loByte w))
  | .load, some .a, .indirectY => some (.ldaIndY (loByte w))
  | .load, some .x, .immediate => some (.ldxImm (loByte w))
  | .load, some .x, .zeroPage => some (.ldxZp (loByte w))
  | .load, some .x, .zeroPageY => some (.ldxZpY (loByte w))
  | .load, some .x, .absolute => some (.ldxAbs w)
  | .load, some .x, .absoluteY => some (.ldxAbsY w)
  | .load, some .y, .immediate => some (.ldyImm (loByte w))
  | .load, some .y, .zeroPage => some (.ldyZp (loByte w))
  | .load, some .y, .zeroPageX => some (.ldyZpX (loByte w))
  | .load, some .y, .absolute => some (.ldyAbs w)
  | .load, some .y, .absoluteX => some (.ldyAbsX w)
  | .store, some .a, .zeroPage => some (.staZp (loByte w))
  | .store, some .a, .zeroPageX => some (.staZpX (loByte w))
  | .store, some .a, .absolute => some (.staAbs w)
  | .store, some .a, .absoluteX => some (.staAbsX w)
  | .store, some .a, .indirectX => some (.staIndX (loByte w))
  | .store, some .a, .indirectY => some (.staIndY (loByte w))
  | .store, some .x, .zeroPage => some (.stxZp (loByte w))
  | .store, some .x, .zeroPageY => some (.stxZpY (loByte w))
  | .store, some .x, .absolute => some (.stxAbs w)
  | .store, some .y, .zeroPage => some (.styZp (loByte w))
  | .store, some .y, .zeroPageX => some (.styZpX (loByte w))
  | .store, some .y, .absolute => some (.styAbs w)
  | .jsr, none, .absolute => some (.jsr w)
  | _, _, _ => none

/-- Decode the instruction whose opcode byte is `b0` and whose next two bytes are `b1` and `b2`; an
`OP_D8` instruction does not use `b2` (R61). The checks stand in the order of R176. -/
def decodeWindow (b0 b1 b2 : Byte) : Except OpcodeError Instr :=
  match lookup opcodeTable b0 with
  | none => .error (.unknownOpcode b0)
  | some e =>
    if e.wellFormed then
      match assemble e.operation e.mode e.register (wordOf b1 b2) with
      | some i => .ok i
      | none => .error (.illegalCombination b0)
    else .error (.illegalCombination b0)

/-- Decode a stream of bytes, lowest address first: the instruction and the bytes after it (R50, R61). -/
def decode : List Byte → Except DecodeError (Instr × List Byte)
  | [] => .error .truncated
  | op :: rest =>
    match decodeWindow op (rest.getD 0 0) (rest.getD 1 0) with
    | .error e => .error (.opcode e)
    | .ok i =>
      if i.length ≤ rest.length + 1 then .ok (i, rest.drop (i.length - 1)) else .error .truncated

/-- Byte `k` of a little-endian number (R50, "byte 0 least significant"). -/
def byteAt (k w : Nat) : Byte := BitVec.ofNat 8 (w / 2 ^ (8 * k))

/-- The three bytes, lowest address first, of an instruction whose `nbits` lowest bits are `w`'s and whose
bits above are zero (R50); three bytes is the longest instruction (R54). -/
def tableBytes (nbits w : Nat) : List Byte :=
  let v := w % 2 ^ nbits
  [byteAt 0 v, byteAt 1 v, byteAt 2 v]

/-- The instruction the decoder reads from a word numbered as spec/opcode_table.json numbers it. -/
def decodeTableWord (nbits w : Nat) : Option Instr :=
  match decode (tableBytes nbits w) with
  | .ok (i, _) => some i
  | .error _ => none

/-! ## Encoding -/

/-- The opcode byte of an instruction, from the "Encoding" entry of the instruction's own rule (R92 to
R108, R122 to R133, R140). -/
def Instr.opcode : Instr → Byte
  | .ldaImm _ => 0xA9
  | .ldaZp _ => 0xA5
  | .ldaZpX _ => 0xB5
  | .ldaAbs _ => 0xAD
  | .ldaAbsX _ => 0xBD
  | .ldaIndX _ => 0xA1
  | .ldaIndY _ => 0xB1
  | .ldxImm _ => 0xA2
  | .ldxZp _ => 0xA6
  | .ldxZpY _ => 0xB6
  | .ldxAbs _ => 0xAE
  | .ldxAbsY _ => 0xBE
  | .ldyImm _ => 0xA0
  | .ldyZp _ => 0xA4
  | .ldyZpX _ => 0xB4
  | .ldyAbs _ => 0xAC
  | .ldyAbsX _ => 0xBC
  | .staZp _ => 0x85
  | .staZpX _ => 0x95
  | .staAbs _ => 0x8D
  | .staAbsX _ => 0x9D
  | .staIndX _ => 0x81
  | .staIndY _ => 0x91
  | .stxZp _ => 0x86
  | .stxZpY _ => 0x96
  | .stxAbs _ => 0x8E
  | .styZp _ => 0x84
  | .styZpX _ => 0x94
  | .styAbs _ => 0x8C
  | .jsr _ => 0x20

/-- The operand bytes of an instruction, low byte first (R50). -/
def Instr.operandBytes : Instr → List Byte
  | .ldaImm d | .ldaZp d | .ldaZpX d | .ldaIndX d | .ldaIndY d => [d]
  | .ldxImm d | .ldxZp d | .ldxZpY d => [d]
  | .ldyImm d | .ldyZp d | .ldyZpX d => [d]
  | .staZp d | .staZpX d | .staIndX d | .staIndY d => [d]
  | .stxZp d | .stxZpY d => [d]
  | .styZp d | .styZpX d => [d]
  | .ldaAbs w | .ldaAbsX w => [loByte w, hiByte w]
  | .ldxAbs w | .ldxAbsY w => [loByte w, hiByte w]
  | .ldyAbs w | .ldyAbsX w => [loByte w, hiByte w]
  | .staAbs w | .staAbsX w => [loByte w, hiByte w]
  | .stxAbs w | .styAbs w => [loByte w, hiByte w]
  | .jsr w => [loByte w, hiByte w]

/-- The bytes of an instruction, lowest address first (R50). -/
def encode (i : Instr) : List Byte := i.opcode :: i.operandBytes

end Sys2Proof
end

