-- ==== Sys2Proof/Machine/State.lean ====
section
/-! DEFINITION. Machine/State.lean: the state of the machine, its reasons to stop, and the state after reset
(spec/10_state.md, spec/60_exceptions.md R170, spec/70_reset_and_hazards.md R200). -/

namespace Sys2Proof.Machine

/-- The three fatal conditions (R170), with the information each records. A fatal condition ends the step,
and a faulted run has no final state (R174). -/
inductive Fault where
  /-- Code 1, raised by `step` when the fetched byte has no Opcode Table entry; records the byte and the
  address it was fetched from (R170, R171). Safe: the spec itself ends the run here. -/
  | unknownOpcode (op : Byte) (addr : Word)
  /-- Code 2, raised by `step` when the table's entry is an illegal triple; records the byte (R170, R172).
  Safe: the spec itself ends the run here; no byte reaches it with the table of R55. -/
  | illegalCombination (op : Byte)
  /-- Code 3, raised by a word access whose low byte is at `0xFFFF`; records that address (R35, R170, R173).
  Safe: the spec picks rejection, where the original may have wrapped (log entry 3). -/
  | wordAccessOutOfRange (addr : Word)
deriving DecidableEq, Repr

/-- Why the machine makes no move at all. -/
inductive Refusal where
  /-- Raised by an arm of `exec` whose instruction has no meaning yet; no arm does. Safe. -/
  | notModelled (mnemonic : String)
  /-- Raised by `step`, `execute` and the host's direct access in status `UNINIT`: "no other operation may be
  called before it" (R23, R201). Safe: the spec says a model refuses them. -/
  | beforeReset
  /-- Raised by `step`, `execute` and the host's direct access in status `FAULTED`: only `reset` is allowed
  (R23, R175; log entry 15). Safe: the spec gives no move there. -/
  | afterFatal
deriving DecidableEq, Repr

/-- The engine status (R23). -/
inductive EngineStatus where
  /-- No reset yet. -/
  | uninit
  /-- At an instruction boundary, able to step. -/
  | ready
  /-- A fatal condition was raised: its cause and information. -/
  | faulted (cause : Fault)
deriving DecidableEq, Repr

/-- Everything the spec gives the machine (R10 to R20, R23, R24), and one field of the model's own, `cycles`. -/
structure State where
  /-- The program counter (R11). -/
  pc : Word
  /-- The stack index (R12). -/
  sp : Byte
  /-- The accumulator (R13). -/
  a : Byte
  /-- Index register X (R13). -/
  x : Byte
  /-- Index register Y (R13). -/
  y : Byte
  /-- Carry (R15). -/
  flagC : Bool
  /-- Zero (R15). -/
  flagZ : Bool
  /-- InterruptDisable (R15). -/
  flagI : Bool
  /-- Decimal (R15). -/
  flagD : Bool
  /-- Break (R15). -/
  flagB : Bool
  /-- Overflow (R15). -/
  flagV : Bool
  /-- Negative (R15). -/
  flagN : Bool
  /-- The 65536 bytes of memory (R20, R30): the bytes that are not zero, addresses strictly rising; an address
  that is not listed reads as zero, its value after reset (R26). DESIGN CHOICE of form, safe: log entry 18. -/
  mem : List Host.Cell
  /-- The engine status (R23). -/
  status : EngineStatus
  /-- What the last step returned, its cycle cost (R150); 0 where no step has returned one since reset. The
  model's own field: the spec returns the cost from `step` and keeps it nowhere (R22). DESIGN CHOICE, safe:
  log entry 16. -/
  cycles : Nat
deriving DecidableEq, Repr

/-- The state after `reset` (R26, R200). -/
def State.reset : State where
  pc := Config.resetPc
  sp := Config.resetSp
  a := 0x00
  x := 0x00
  y := 0x00
  flagC := false
  flagZ := false
  flagI := false
  flagD := false
  flagB := false
  flagV := false
  flagN := false
  mem := []
  status := .ready
  cycles := 0

end Sys2Proof.Machine
end

