-- ==== Sys2Proof/Machine/Ops.lean ====
section
/-! DEFINITION. Machine/Ops.lean: the named operations over registers, flags and memory, instruction fetch, the
stack push, and what a fatal condition does (spec/10_state.md, spec/20_memory.md, spec/40_addressing.md
R71 and R72, spec/43_jsr.md R141, spec/60_exceptions.md R174). -/

namespace Sys2Proof.Machine

/-- How a step ends. -/
abbrev Result := Host.Outcome State Fault Refusal

/-! ## Registers, flags, status -/

/-- `reg(R)` read (R8). -/
def State.getReg (s : State) : Reg → Byte
  | .a => s.a
  | .x => s.x
  | .y => s.y

/-- `reg(R) <- v` (R8). -/
def State.setReg (s : State) (r : Reg) (v : Byte) : State :=
  match r with
  | .a => { s with a := v }
  | .x => { s with x := v }
  | .y => { s with y := v }

/-- One flag read (R15). -/
def State.getFlag (s : State) : Flag → Bool
  | .c => s.flagC
  | .z => s.flagZ
  | .i => s.flagI
  | .d => s.flagD
  | .b => s.flagB
  | .v => s.flagV
  | .n => s.flagN

/-- One flag written, the other six kept (R15). -/
def State.setFlag (s : State) (f : Flag) (b : Bool) : State :=
  match f with
  | .c => { s with flagC := b }
  | .z => { s with flagZ := b }
  | .i => { s with flagI := b }
  | .d => { s with flagD := b }
  | .b => { s with flagB := b }
  | .v => { s with flagV := b }
  | .n => { s with flagN := b }

/-- `pc <- v` (R11). -/
def State.setPc (s : State) (v : Word) : State := { s with pc := v }

/-- `sp <- v` (R12). -/
def State.setSp (s : State) (v : Byte) : State := { s with sp := v }

/-- `return n`: the step ends normally and reports `n` cycles (R8). -/
def State.retire (s : State) (n : Nat) : State := { s with cycles := n }

/-! ## Memory as a list of cells -/

/-- The byte at an address; an address that is not listed holds zero (R26). -/
def Memory.read : List Host.Cell → Nat → Byte
  | [], _ => 0#8
  | (k, v) :: rest, a => if a = k then v else Memory.read rest a

/-- The memory with the byte `v` at an address. The list stays sorted, and a zero byte is not listed. -/
def Memory.write : List Host.Cell → Nat → Byte → List Host.Cell
  | [], a, v => if v = 0#8 then [] else [(a, v)]
  | (k, w) :: rest, a, v =>
    if a < k then (if v = 0#8 then (k, w) :: rest else (a, v) :: (k, w) :: rest)
    else if a = k then (if v = 0#8 then rest else (a, v) :: rest)
    else (k, w) :: Memory.write rest a v

/-- The canonical form from address `lo` on: strictly rising addresses below the memory's size, no zero
byte listed. -/
def Memory.wfFrom : Nat → List Host.Cell → Bool
  | _, [] => true
  | lo, (k, v) :: rest =>
    decide (lo ≤ k) && decide (k < Config.memSize) && v != 0#8 && Memory.wfFrom (k + 1) rest

/-- The canonical form of memory: equal memories are equal lists (log entry 18). -/
def Memory.wf (m : List Host.Cell) : Bool := Memory.wfFrom 0 m

/-! ## The four accessors of the bus -/

/-- `MemRead(addr, 1)` (R31). -/
def State.readByte (s : State) (addr : Word) : Byte := Memory.read s.mem addr.toNat

/-- `MemWrite(addr, 1, v)` (R33). -/
def State.writeByte (s : State) (addr : Word) (v : Byte) : State :=
  { s with mem := Memory.write s.mem addr.toNat v }

/-- `MemRead(addr, 2)`: little-endian, fatal at `0xFFFF` with no byte read (R32, R35). -/
def State.readWord (s : State) (addr : Word) : Except Fault Word :=
  if addr = Config.lastAddress then .error (.wordAccessOutOfRange addr)
  else .ok (wordOf (s.readByte addr) (s.readByte (addr + 1)))

/-- `MemWrite(addr, 2, v)`: little-endian, fatal at `0xFFFF` with no byte written (R34, R35). -/
def State.writeWord (s : State) (addr : Word) (v : Word) : Except Fault State :=
  if addr = Config.lastAddress then .error (.wordAccessOutOfRange addr)
  else .ok ((s.writeByte addr (loByte v)).writeByte (addr + 1) (hiByte v))

/-- Bytes placed at ascending addresses from `addr` on, modulo 2^16 (R50, R202). -/
def State.placeBytes (s : State) (addr : Word) : List Byte → State
  | [] => s
  | b :: rest => (s.writeByte addr b).placeBytes (addr + 1) rest

/-! ## The instruction stream -/

/-- `FetchByte()`: the byte at `pc`, and the state with `pc` one further (R71). -/
def State.fetchByte (s : State) : Byte × State := (s.readByte s.pc, s.setPc (s.pc + 1))

/-- `FetchWord()`: the word at `pc`, and the state with `pc` two further; fatal with `pc` not advanced when
`pc = 0xFFFF` (R72). -/
def State.fetchWord (s : State) : Except Fault (Word × State) :=
  match s.readWord s.pc with
  | .error f => .error f
  | .ok w => .ok (w, s.setPc (s.pc + 2))

/-- The opcode byte and the operand of an instruction of format `f` fetched: `pc` moves past them, or the
operand's word fetch is fatal (R54, R71, R72). The operand's value is the instruction's field. -/
def State.consume (s : State) (f : Format) : Except Fault State :=
  let s1 := s.fetchByte.2
  match f with
  | .opD8 => .ok s1.fetchByte.2
  | .opA16 =>
    match s1.fetchWord with
    | .error e => .error e
    | .ok (_, s2) => .ok s2

/-- The instruction at `pc`: the three bytes there, decoded (R61). A byte without a row is fatal with its
address recorded (R171), and an illegal row is fatal (R172). DEDUCED, safe: log entry 13. -/
def fetch (s : State) : Except Fault Instr :=
  match decodeWindow (s.readByte s.pc) (s.readByte (s.pc + 1)) (s.readByte (s.pc + 2)) with
  | .error (.unknownOpcode op) => .error (.unknownOpcode op s.pc)
  | .error (.illegalCombination op) => .error (.illegalCombination op)
  | .ok i => .ok i

/-! ## The stack -/

/-- The address `Push16` writes its word at, given the new `sp` (R141): formed in 16 bits, no page offset
(R12), no 8-bit wrap (UNVERIFIED, unsafe for `sp` 0 and 1: log entries 4 and 5). -/
def pushAddress (sp : Byte) : Word := zext16 sp + Config.stackPageOffset + 1

/-- `Push16(w)`: `sp` down by two modulo 2^8, the word at the two addresses just above it (R141). -/
def State.push16 (s : State) (w : Word) : Except Fault State :=
  let s1 := s.setSp (s.sp - 2)
  s1.writeWord (pushAddress s1.sp) w

/-! ## Fatal conditions -/

/-- The cause code of a fatal condition (R170). -/
def Fault.code : Fault → Nat
  | .unknownOpcode _ _ => 1
  | .illegalCombination _ => 2
  | .wordAccessOutOfRange _ => 3

/-- What a fatal condition leaves of the state `s` in which its step began: the status is `FAULTED` with the
cause, `pc` is past the opcode byte, no cost is reported, nothing else is written (R174). -/
def State.enterFatal (s : State) (f : Fault) : State :=
  { s with pc := s.pc + 1, status := .faulted f, cycles := 0 }

end Sys2Proof.Machine
end

