-- ==== Sys2Proof/Machine/Operands.lean ====
section
/-! DEFINITION. Machine/Operands.lean: the addressing-mode resolver, page-crossing detection and the two cost
tables (spec/40_addressing.md R70 to R86, spec/41_load.md R91, spec/42_store.md R121). -/

namespace Sys2Proof.Machine

/-- What the Resolver returns: the effective address and the page-crossing bit (R70). -/
structure Resolved where
  addr : Word
  crossed : Bool
deriving DecidableEq, Repr

/-- `PageCross(addr, index)`: the low byte of the summed address is smaller than the index (R82). -/
def pageCross (addr : Word) (index : Byte) : Bool := decide (loByte addr < index)

/-- An indexed 16-bit base: the sum modulo 2^16, and whether it crossed (R78, R79, R81). -/
def indexed (base : Word) (index : Byte) : Resolved :=
  let addr := base + zext16 index
  ⟨addr, pageCross addr index⟩

/-- `Resolve(mode)` for an operand that has been fetched (R74 to R81). An indirect pointer at `0x00FF` has its
high byte at `0x0100` (UNVERIFIED, unsafe there: log entry 12). -/
def resolve (form : AddrForm) (s : State) : Except Fault Resolved :=
  match form with
  | .zeroPage d => .ok ⟨zext16 d, false⟩
  | .zeroPageX d => .ok ⟨zext16 (d + s.x), false⟩
  | .zeroPageY d => .ok ⟨zext16 (d + s.y), false⟩
  | .absolute w => .ok ⟨w, false⟩
  | .absoluteX w => .ok (indexed w s.x)
  | .absoluteY w => .ok (indexed w s.y)
  | .indirectX d =>
    match s.readWord (zext16 (d + s.x)) with
    | .error f => .error f
    | .ok addr => .ok ⟨addr, false⟩
  | .indirectY d =>
    match s.readWord (zext16 d) with
    | .error f => .error f
    | .ok base => .ok (indexed base s.y)

/-- `LoadCycles(Immediate)` (R91). -/
def immediateLoadCycles : Nat := 2

/-- `LoadCycles(mode, crossed)` for a mode that resolves an address (R91). -/
def loadCycles (form : AddrForm) (crossed : Bool) : Nat :=
  match form with
  | .zeroPage _ => 3
  | .zeroPageX _ => 4
  | .zeroPageY _ => 4
  | .absolute _ => 4
  | .absoluteX _ => if crossed then 5 else 4
  | .absoluteY _ => if crossed then 5 else 4
  | .indirectX _ => 6
  | .indirectY _ => if crossed then 6 else 5

/-- `StoreCycles(mode)`: fixed, whether or not a page is crossed (R121). -/
def storeCycles (form : AddrForm) : Nat :=
  match form with
  | .zeroPage _ => 3
  | .zeroPageX _ => 4
  | .zeroPageY _ => 4
  | .absolute _ => 4
  | .absoluteX _ => 5
  | .absoluteY _ => 5
  | .indirectX _ => 6
  | .indirectY _ => 6

/-- The cost of `JSR` (R140). -/
def jsrCycles : Nat := 6

end Sys2Proof.Machine
end

