-- ==== Sys2Proof/Machine/Jsr.lean ====
section
/-! DEFINITION. Machine/Jsr.lean: jump to subroutine (spec/43_jsr.md). The meaning starts with `pc` at the
instruction's opcode byte (log entry 17). -/

namespace Sys2Proof.Machine

/-- `JSR $nnnn`: the operand fetched, the address of the instruction's last byte pushed, `pc` loaded with the
target (R140). -/
def execJsr (w : Word) (s : State) : Result :=
  match s.consume .opA16 with
  | .error f => .fault f
  | .ok s1 =>
    match s1.push16 (s1.pc - 1) with
    | .error f => .fault f
    | .ok s2 => .next ((s2.setPc w).retire jsrCycles)

end Sys2Proof.Machine
end

