-- ==== Sys2Proof/Machine/Flags.lean ====
section
/-! DEFINITION. Machine/Flags.lean: the one flag computation of the machine (spec/10_state.md R16,
spec/41_load.md R90). -/

namespace Sys2Proof.Machine

/-- `Z`: the loaded byte is zero (R90). -/
def zeroOf (v : Byte) : Bool := v == 0

/-- `N`: bit 7 of the loaded byte (R90). -/
def negativeOf (v : Byte) : Bool := v.getLsbD 7

/-- The flags after a load of `v`: `Z` and `N` written, the other five kept (R16, R90). -/
def State.setZN (s : State) (v : Byte) : State :=
  { s with flagZ := zeroOf v, flagN := negativeOf v }

end Sys2Proof.Machine
end

