-- ==== Sys2Proof/Machine/Load.lean ====
section
/-! DEFINITION. Machine/Load.lean: the load family LDA, LDX, LDY (spec/41_load.md). A meaning starts with `pc` at
the instruction's opcode byte (log entry 17). -/

namespace Sys2Proof.Machine

/-- The common end of every load: the register, `Z` and `N` written (R90). -/
def State.loadReg (s : State) (r : Reg) (v : Byte) : State := (s.setReg r v).setZN v

/-- `Load(Immediate, R)`: the value is the operand byte itself (R73, R90). -/
def loadImmediate (r : Reg) (d : Byte) (s : State) : Result :=
  match s.consume .opD8 with
  | .error f => .fault f
  | .ok s1 => .next ((s1.loadReg r d).retire immediateLoadCycles)

/-- `Load(mode, R)` for a mode that resolves an address: the byte there is loaded (R90). -/
def loadFrom (r : Reg) (form : AddrForm) (s : State) : Result :=
  match s.consume form.mode.format with
  | .error f => .fault f
  | .ok s1 =>
    match resolve form s1 with
    | .error f => .fault f
    | .ok res => .next ((s1.loadReg r (s1.readByte res.addr)).retire (loadCycles form res.crossed))

/-- `LDA #$nn` (R92). -/
def execLdaImm (d : Byte) (s : State) : Result := loadImmediate .a d s

/-- `LDA $nn` (R93). -/
def execLdaZp (d : Byte) (s : State) : Result := loadFrom .a (.zeroPage d) s

/-- `LDA $nn,X` (R94). -/
def execLdaZpX (d : Byte) (s : State) : Result := loadFrom .a (.zeroPageX d) s

/-- `LDA $nnnn` (R95). -/
def execLdaAbs (w : Word) (s : State) : Result := loadFrom .a (.absolute w) s

/-- `LDA $nnnn,X` (R96). -/
def execLdaAbsX (w : Word) (s : State) : Result := loadFrom .a (.absoluteX w) s

/-- `LDA ($nn,X)` (R97). -/
def execLdaIndX (d : Byte) (s : State) : Result := loadFrom .a (.indirectX d) s

/-- `LDA ($nn),Y` (R98). -/
def execLdaIndY (d : Byte) (s : State) : Result := loadFrom .a (.indirectY d) s

/-- `LDX #$nn` (R99). -/
def execLdxImm (d : Byte) (s : State) : Result := loadImmediate .x d s

/-- `LDX $nn` (R100). -/
def execLdxZp (d : Byte) (s : State) : Result := loadFrom .x (.zeroPage d) s

/-- `LDX $nn,Y` (R101). -/
def execLdxZpY (d : Byte) (s : State) : Result := loadFrom .x (.zeroPageY d) s

/-- `LDX $nnnn` (R102). -/
def execLdxAbs (w : Word) (s : State) : Result := loadFrom .x (.absolute w) s

/-- `LDX $nnnn,Y` (R103). -/
def execLdxAbsY (w : Word) (s : State) : Result := loadFrom .x (.absoluteY w) s

/-- `LDY #$nn` (R104). -/
def execLdyImm (d : Byte) (s : State) : Result := loadImmediate .y d s

/-- `LDY $nn` (R105). -/
def execLdyZp (d : Byte) (s : State) : Result := loadFrom .y (.zeroPage d) s

/-- `LDY $nn,X` (R106). -/
def execLdyZpX (d : Byte) (s : State) : Result := loadFrom .y (.zeroPageX d) s

/-- `LDY $nnnn` (R107). -/
def execLdyAbs (w : Word) (s : State) : Result := loadFrom .y (.absolute w) s

/-- `LDY $nnnn,X` (R108). -/
def execLdyAbsX (w : Word) (s : State) : Result := loadFrom .y (.absoluteX w) s

end Sys2Proof.Machine
end

