-- ==== Sys2Proof/Machine/Store.lean ====
section
/-! DEFINITION. Machine/Store.lean: the store family STA, STX, STY (spec/42_store.md). A meaning starts with `pc` at
the instruction's opcode byte (log entry 17). -/

namespace Sys2Proof.Machine

/-- `Store(mode, R)`: the register's byte goes to the resolved address; no register and no flag is written
(R120). It covers the two legal pairs no opcode byte selects too (R83). -/
def storeTo (r : Reg) (form : AddrForm) (s : State) : Result :=
  match s.consume form.mode.format with
  | .error f => .fault f
  | .ok s1 =>
    match resolve form s1 with
    | .error f => .fault f
    | .ok res => .next ((s1.writeByte res.addr (s1.getReg r)).retire (storeCycles form))

/-- `STA $nn` (R122). -/
def execStaZp (d : Byte) (s : State) : Result := storeTo .a (.zeroPage d) s

/-- `STA $nn,X` (R123). -/
def execStaZpX (d : Byte) (s : State) : Result := storeTo .a (.zeroPageX d) s

/-- `STA $nnnn` (R124). -/
def execStaAbs (w : Word) (s : State) : Result := storeTo .a (.absolute w) s

/-- `STA $nnnn,X` (R125). -/
def execStaAbsX (w : Word) (s : State) : Result := storeTo .a (.absoluteX w) s

/-- `STA ($nn,X)` (R126). -/
def execStaIndX (d : Byte) (s : State) : Result := storeTo .a (.indirectX d) s

/-- `STA ($nn),Y` (R127). -/
def execStaIndY (d : Byte) (s : State) : Result := storeTo .a (.indirectY d) s

/-- `STX $nn` (R128). -/
def execStxZp (d : Byte) (s : State) : Result := storeTo .x (.zeroPage d) s

/-- `STX $nn,Y` (R129). -/
def execStxZpY (d : Byte) (s : State) : Result := storeTo .x (.zeroPageY d) s

/-- `STX $nnnn` (R130). -/
def execStxAbs (w : Word) (s : State) : Result := storeTo .x (.absolute w) s

/-- `STY $nn` (R131). -/
def execStyZp (d : Byte) (s : State) : Result := storeTo .y (.zeroPage d) s

/-- `STY $nn,X` (R132). -/
def execStyZpX (d : Byte) (s : State) : Result := storeTo .y (.zeroPageX d) s

/-- `STY $nnnn` (R133). -/
def execStyAbs (w : Word) (s : State) : Result := storeTo .y (.absolute w) s

end Sys2Proof.Machine
end

