-- ==== Sys2Proof/Machine/Dispatch.lean ====
section
/-! DEFINITION. Machine/Dispatch.lean: one arm per instruction, each a direct call of its meaning (R150). -/

namespace Sys2Proof.Machine

def exec (i : Instr) (s : State) : Host.Outcome State Fault Refusal :=
  match i with
  | .ldaImm d => Sys2Proof.Machine.execLdaImm d s
  | .ldaZp d => Sys2Proof.Machine.execLdaZp d s
  | .ldaZpX d => Sys2Proof.Machine.execLdaZpX d s
  | .ldaAbs w => Sys2Proof.Machine.execLdaAbs w s
  | .ldaAbsX w => Sys2Proof.Machine.execLdaAbsX w s
  | .ldaIndX d => Sys2Proof.Machine.execLdaIndX d s
  | .ldaIndY d => Sys2Proof.Machine.execLdaIndY d s
  | .ldxImm d => Sys2Proof.Machine.execLdxImm d s
  | .ldxZp d => Sys2Proof.Machine.execLdxZp d s
  | .ldxZpY d => Sys2Proof.Machine.execLdxZpY d s
  | .ldxAbs w => Sys2Proof.Machine.execLdxAbs w s
  | .ldxAbsY w => Sys2Proof.Machine.execLdxAbsY w s
  | .ldyImm d => Sys2Proof.Machine.execLdyImm d s
  | .ldyZp d => Sys2Proof.Machine.execLdyZp d s
  | .ldyZpX d => Sys2Proof.Machine.execLdyZpX d s
  | .ldyAbs w => Sys2Proof.Machine.execLdyAbs w s
  | .ldyAbsX w => Sys2Proof.Machine.execLdyAbsX w s
  | .staZp d => Sys2Proof.Machine.execStaZp d s
  | .staZpX d => Sys2Proof.Machine.execStaZpX d s
  | .staAbs w => Sys2Proof.Machine.execStaAbs w s
  | .staAbsX w => Sys2Proof.Machine.execStaAbsX w s
  | .staIndX d => Sys2Proof.Machine.execStaIndX d s
  | .staIndY d => Sys2Proof.Machine.execStaIndY d s
  | .stxZp d => Sys2Proof.Machine.execStxZp d s
  | .stxZpY d => Sys2Proof.Machine.execStxZpY d s
  | .stxAbs w => Sys2Proof.Machine.execStxAbs w s
  | .styZp d => Sys2Proof.Machine.execStyZp d s
  | .styZpX d => Sys2Proof.Machine.execStyZpX d s
  | .styAbs w => Sys2Proof.Machine.execStyAbs w s
  | .jsr w => Sys2Proof.Machine.execJsr w s

end Sys2Proof.Machine
end

