-- ==== Sys2Proof/Machine/Step.lean ====
section
/-! DEFINITION. Machine/Step.lean: one step of the machine (spec/44_step_execute.md R150). -/

namespace Sys2Proof.Machine

/-- `step`: only in status `READY` (R23); fetch one instruction and fully execute it (R150). -/
def step (s : State) : Host.Outcome State Fault Refusal :=
  match s.status with
  | .uninit => .refused .beforeReset
  | .faulted _ => .refused .afterFatal
  | .ready =>
    match fetch s with
    | .error f => .fault f
    | .ok i => exec i s

/-- The state with the bytes of a table word placed at `pc`, as a host places a program (R202, log entry
19). -/
def State.withFetchWord (s : State) (nbits w : Nat) : State := s.placeBytes s.pc (tableBytes nbits w)

end Sys2Proof.Machine
end

