-- ==== Sys2Proof/Machine/Dispatcher.lean ====
section
/-! DEFINITION. Machine/Dispatcher.lean: the step as the pseudocode of spec/44_step_execute.md R150 spells it, for
any opcode table. `step` decodes and runs an `Instr`; here the bytes are consumed one by one through `pc`,
the table is an argument (spec/92_eei_decisions.md D1), the legality check can fail (R172), and every
legal triple runs, the two without an opcode byte included (R83). -/

namespace Sys2Proof.Machine

/-- An operand that has been fetched: a value, or something to resolve (R70, R73). -/
inductive Operand where
  | value (d : Byte)
  | address (form : AddrForm)
deriving DecidableEq, Repr

/-- A one-byte operand fetched (R71). -/
def fetchD8 (f : Byte → Operand) (s : State) : Except Fault (Operand × State) :=
  .ok (f s.fetchByte.1, s.fetchByte.2)

/-- A two-byte operand fetched (R72). -/
def fetchA16 (f : Word → Operand) (s : State) : Except Fault (Operand × State) :=
  match s.fetchWord with
  | .error e => .error e
  | .ok (w, s1) => .ok (f w, s1)

/-- The operand of a mode fetched through `pc`, which is past the opcode byte (R73 to R81). -/
def fetchOperand (m : Mode) (s : State) : Except Fault (Operand × State) :=
  match m with
  | .immediate => fetchD8 .value s
  | .zeroPage => fetchD8 (fun d => .address (.zeroPage d)) s
  | .zeroPageX => fetchD8 (fun d => .address (.zeroPageX d)) s
  | .zeroPageY => fetchD8 (fun d => .address (.zeroPageY d)) s
  | .absolute => fetchA16 (fun w => .address (.absolute w)) s
  | .absoluteX => fetchA16 (fun w => .address (.absoluteX w)) s
  | .absoluteY => fetchA16 (fun w => .address (.absoluteY w)) s
  | .indirectX => fetchD8 (fun d => .address (.indirectX d)) s
  | .indirectY => fetchD8 (fun d => .address (.indirectY d)) s

/-- `Load(mode, R)` (R90). -/
def dispatchLoad (m : Mode) (r : Reg) (s : State) : Result :=
  match fetchOperand m s with
  | .error f => .fault f
  | .ok (.value v, s1) => .next (((s1.setReg r v).setZN v).retire immediateLoadCycles)
  | .ok (.address form, s1) =>
    match resolve form s1 with
    | .error f => .fault f
    | .ok res =>
      let v := s1.readByte res.addr
      .next (((s1.setReg r v).setZN v).retire (loadCycles form res.crossed))

/-- `Store(mode, R)` (R120). A store has no immediate operand: `legal` has refused it (R83). -/
def dispatchStore (op : Byte) (m : Mode) (r : Reg) (s : State) : Result :=
  match fetchOperand m s with
  | .error f => .fault f
  | .ok (.value _, _) => .fault (.illegalCombination op)
  | .ok (.address form, s1) =>
    match resolve form s1 with
    | .error f => .fault f
    | .ok res => .next ((s1.writeByte res.addr (s1.getReg r)).retire (storeCycles form))

/-- `Jsr()` (R140). -/
def dispatchJsr (s : State) : Result :=
  match s.fetchWord with
  | .error f => .fault f
  | .ok (target, s1) =>
    match s1.push16 (s1.pc - 1) with
    | .error f => .fault f
    | .ok s2 => .next ((s2.setPc target).retire jsrCycles)

/-- `case operation of` (R150). A load or a store without a register is no legal triple. -/
def dispatchEntry (e : OpcodeEntry) (s : State) : Result :=
  match e.operation, e.register with
  | .load, some r => dispatchLoad e.mode r s
  | .store, some r => dispatchStore e.opcode e.mode r s
  | .jsr, _ => dispatchJsr s
  | .load, none => .fault (.illegalCombination e.opcode)
  | .store, none => .fault (.illegalCombination e.opcode)

/-- `step()` over the opcode table `t`, from a state in `READY` (R150). -/
def dispatchStep (t : List OpcodeEntry) (s : State) : Result :=
  let op := s.fetchByte.1
  let s1 := s.fetchByte.2
  match lookup t op with
  | none => .fault (.unknownOpcode op (s1.pc - 1))
  | some e => if e.wellFormed then dispatchEntry e s1 else .fault (.illegalCombination op)

end Sys2Proof.Machine
end

