-- ==== Sys2Proof/Machine/Execute.lean ====
section
/-! DEFINITION. Machine/Execute.lean: the execution loop (spec/44_step_execute.md R152 to R157). -/

namespace Sys2Proof.Machine

/-- How a run ends (R155). -/
inductive RunEnd where
  /-- Normal end: the total, and the state after the last step. -/
  | finished (total : Nat) (s : State)
  /-- Fatal end: nothing is returned, the status is `FAULTED`. -/
  | fatal (cause : Fault) (s : State)
  /-- The operation may not run in this status (R23). -/
  | refused (why : Refusal) (s : State)
deriving DecidableEq, Repr

/-- The `while` loop of `execute`, the budget tested before every step (R152). `fuel` bounds the steps: a
completed step costs at least two cycles, so fuel as large as the budget is never used up while the
budget is not met (R155, log entry 21). -/
def runLoop (maxCycles : Nat) : Nat → Nat → State → RunEnd
  | 0, total, s => .finished total s
  | fuel + 1, total, s =>
    if total < maxCycles then
      match step s with
      | .next s1 => runLoop maxCycles fuel (total + s1.cycles) s1
      | .fault f => .fatal f (s.enterFatal f)
      | .refused r => .refused r s
    else .finished total s

/-- `execute(max_cycles)`: only in status `READY`; the total starts at 0 (R22, R23, R152). -/
def execute (maxCycles : Nat) (s : State) : RunEnd :=
  match s.status with
  | .uninit => .refused .beforeReset s
  | .faulted _ => .refused .afterFatal s
  | .ready => runLoop maxCycles maxCycles 0 s

end Sys2Proof.Machine
end

