-- ==== Sys2Proof/Machine/Interface.lean ====
section
/-! DEFINITION. Machine/Interface.lean: what the outside world can do to the machine (spec/10_state.md R25,
spec/44_step_execute.md R158, spec/60_exceptions.md R183, spec/70_reset_and_hazards.md R200). -/

namespace Sys2Proof.Machine

/-- One operation of the machine's owner, made between operations (R4, R183). -/
inductive HostOp where
  /-- `reset`, allowed in any status (R200). -/
  | reset
  /-- One step, called directly (R158). -/
  | step
  /-- `execute(max_cycles)` (R152). -/
  | execute (maxCycles : Nat)
  /-- Direct read access (R25). -/
  | readPc
  | readSp
  | readReg (r : Reg)
  | readFlag (f : Flag)
  | readMem (addr : Word)
  /-- Direct write access, with any value of the register's width (R25). -/
  | writePc (v : Word)
  | writeSp (v : Byte)
  | writeReg (r : Reg) (v : Byte)
  | writeFlag (f : Flag) (b : Bool)
  | writeMem (addr : Word) (v : Byte)
deriving DecidableEq, Repr

/-- What an operation answers. -/
inductive HostReply where
  /-- Done, nothing to return. -/
  | done
  /-- A cycle count: of one step (R150) or of a run (R152). -/
  | cycles (n : Nat)
  /-- A 16-bit, an 8-bit, a one-bit value read. -/
  | word (v : Word)
  | byte (v : Byte)
  | bit (b : Bool)
  /-- A fatal condition ended the operation; nothing is returned (R174). -/
  | fatal (cause : Fault)
  /-- Not a move of the machine in this status (R201, R175). -/
  | refused (why : Refusal)
deriving DecidableEq, Repr

/-- Whether direct access is allowed: an answer that depends on the status (R201). DEDUCED, safe,
in `FAULTED`: log entry 15. -/
def access (s : State) (reply : HostReply) (after : State) : HostReply × State :=
  match s.status with
  | .uninit => (.refused .beforeReset, s)
  | .faulted _ => (.refused .afterFatal, s)
  | .ready => (reply, after)

/-- One operation: its answer and the state after it. -/
def operate (op : HostOp) (s : State) : HostReply × State :=
  match op with
  | .reset => (.done, State.reset)
  | .step =>
    match step s with
    | .next s1 => (.cycles s1.cycles, s1)
    | .fault f => (.fatal f, s.enterFatal f)
    | .refused r => (.refused r, s)
  | .execute n =>
    match execute n s with
    | .finished total s1 => (.cycles total, s1)
    | .fatal f s1 => (.fatal f, s1)
    | .refused r s1 => (.refused r, s1)
  | .readPc => access s (.word s.pc) s
  | .readSp => access s (.byte s.sp) s
  | .readReg r => access s (.byte (s.getReg r)) s
  | .readFlag f => access s (.bit (s.getFlag f)) s
  | .readMem addr => access s (.byte (s.readByte addr)) s
  | .writePc v => access s .done (s.setPc v)
  | .writeSp v => access s .done (s.setSp v)
  | .writeReg r v => access s .done (s.setReg r v)
  | .writeFlag f b => access s .done (s.setFlag f b)
  | .writeMem addr v => access s .done (s.writeByte addr v)

end Sys2Proof.Machine
end

