-- ==== Sys2Proof/Safety.lean ====
section
/-! DEFINITION. Safety.lean: the invariant of the machine, and when the next step completes. -/

namespace Sys2Proof.Machine

/-- What a recorded fatal condition can say: an unknown opcode byte has no row (R171), no byte raises an
illegal combination (R58), and a word access is out of range at `0xFFFF` only (R170). -/
def Fault.possible : Fault → Bool
  | .unknownOpcode op _ => (lookup opcodeTable op).isNone
  | .illegalCombination _ => false
  | .wordAccessOutOfRange addr => addr == Config.lastAddress

/-- The status is one the machine can be in (R23). -/
def EngineStatus.possible : EngineStatus → Bool
  | .uninit => true
  | .ready => true
  | .faulted f => f.possible

/-- The invariant: memory is in canonical form, the recorded cost is none or one a step can have (R150,
"a number from 2 to 6"), and a recorded fatal condition is a possible one. -/
structure State.Inv (s : State) : Prop where
  memory : Memory.wf s.mem = true
  cycles : s.cycles = 0 ∨ (2 ≤ s.cycles ∧ s.cycles ≤ 6)
  status : s.status.possible = true

/-- The state with all seven flags cleared: what is left when no flag is looked at (R16). -/
def State.noFlags (s : State) : State :=
  { s with flagC := false, flagZ := false, flagI := false, flagD := false, flagB := false, flagV := false,
           flagN := false }

/-- What a store instruction stores to: its operand, to be resolved; nothing for any other instruction (R120). -/
def storeForm : Instr → Option AddrForm
  | .staZp d => some (.zeroPage d)
  | .staZpX d => some (.zeroPageX d)
  | .staAbs w => some (.absolute w)
  | .staAbsX w => some (.absoluteX w)
  | .staIndX d => some (.indirectX d)
  | .staIndY d => some (.indirectY d)
  | .stxZp d => some (.zeroPage d)
  | .stxZpY d => some (.zeroPageY d)
  | .stxAbs w => some (.absolute w)
  | .styZp d => some (.zeroPage d)
  | .styZpX d => some (.zeroPageX d)
  | .styAbs w => some (.absolute w)
  | .ldaImm _ | .ldaZp _ | .ldaZpX _ | .ldaAbs _ | .ldaAbsX _ | .ldaIndX _ | .ldaIndY _ => none
  | .ldxImm _ | .ldxZp _ | .ldxZpY _ | .ldxAbs _ | .ldxAbsY _ => none
  | .ldyImm _ | .ldyZp _ | .ldyZpX _ | .ldyAbs _ | .ldyAbsX _ => none
  | .jsr _ => none

/-- Memory after a write of the byte `v` at one address: that byte reads as `v` (in canonical memory), every
other byte reads as before (R33). -/
def WroteByte (s t : State) (addr : Word) (v : Byte) : Prop :=
  (Memory.wf s.mem = true → t.readByte addr = v) ∧ ∀ b, b ≠ addr → t.readByte b = s.readByte b

/-- The opcode byte at `pc` has a row (R56). -/
def State.opcodeKnown (s : State) : Bool := (lookup opcodeTable (s.readByte s.pc)).isSome

/-- The opcode byte at `pc` is a 3-byte instruction's and stands at `0xFFFE`, so that its operand word would
be fetched at `0xFFFF` (R35, R173). -/
def State.operandOutOfRange (s : State) : Bool :=
  s.pc == 0xFFFE &&
    match lookup opcodeTable (s.readByte s.pc) with
    | some e => e.mode.format == .opA16
    | none => false

/-- The next step completes: the machine is ready, the opcode byte is known, and the operand can be fetched. -/
def State.canStep (s : State) : Bool :=
  s.status == .ready && s.opcodeKnown && !s.operandOutOfRange

end Sys2Proof.Machine
end

