-- ==== Sys2Proof/Certificates/Slice0/Obligations.lean ====
section
/-! DEFINITION. Certificates/Slice0/Obligations.lean: the statements for the provers. -/

open Sys2Proof Sys2Proof.Machine

/-! ## Reset and the engine status -/

/-- R200: `reset` may be called in any status, returns nothing, and always gives the same state, with the
values the rule lists and every byte of memory zero. That it returns nothing is the spec's decision D21 (log
entry 20). -/
def Obligations.ResetGivesTheStatedState : Prop :=
  ∀ s : State, ∃ t, operate .reset s = (.done, t) ∧
    t.pc = 0xFFFC ∧ t.sp = 0xFD ∧ t.a = 0x00 ∧ t.x = 0x00 ∧ t.y = 0x00 ∧
    (∀ f : Flag, t.getFlag f = false) ∧ (∀ addr : Word, t.readByte addr = 0x00) ∧
    t.status = .ready ∧ t = State.reset

/-- The invariant holds after reset. It also speaks of the model's own field `cycles` (log entry 16) and of
the list form of memory (log entry 18). -/
def Obligations.ResetMeetsTheInvariant : Prop := State.reset.Inv

/-- In `UNINIT` and in `FAULTED` every operation but `reset` is refused and changes nothing. The rules say so
of `step` and `execute` in both statuses and of direct access in `UNINIT`; for direct access in `FAULTED`
it is the model's choice (log entry 15). -/
def Obligations.OnlyResetLeavesUninitAndFaulted : Prop :=
  ∀ (op : HostOp) (s : State), op ≠ .reset →
    (s.status = .uninit → operate op s = (.refused .beforeReset, s)) ∧
    (∀ f, s.status = .faulted f → operate op s = (.refused .afterFatal, s))

/-- What an operation in `READY` does to the status: a fatal condition sets `FAULTED` with its cause and the
operation answers that cause; nothing else changes the status. -/
def Obligations.OnlyFatalConditionsLeaveReady : Prop :=
  ∀ (op : HostOp) (s : State), s.status = .ready →
    (∃ f, operate op s = (.fatal f, (operate op s).2) ∧ (operate op s).2.status = .faulted f) ∨
    ((∀ f, (operate op s).1 ≠ .fatal f) ∧ (operate op s).2.status = .ready)

/-! ## Memory -/

/-- R33: the byte at `addr` becomes `v`, no other byte changes, nothing else of the state changes, and the
write cannot fail (it is no `Except`). The first clause needs canonical memory, which every step keeps. -/
def Obligations.ByteWriteChangesOneByte : Prop :=
  ∀ (s : State) (addr : Word) (v : Byte),
    WroteByte s (s.writeByte addr v) addr v ∧ s.writeByte addr v = { s with mem := (s.writeByte addr v).mem }

/-- R32: a word is the little-endian combination of the bytes at `addr` and `addr + 1`. -/
def Obligations.WordReadIsLittleEndian : Prop :=
  ∀ (s : State) (addr : Word), addr ≠ 0xFFFF →
    ∃ w, s.readWord addr = .ok w ∧
      w.toNat = (s.readByte addr).toNat + 256 * (s.readByte (addr + 1)).toNat

/-- R34: a word write puts the low byte at `addr` and the high byte at `addr + 1`, and no other byte changes;
the word reads back whole. -/
def Obligations.WordWriteIsLittleEndian : Prop :=
  ∀ (s : State) (addr v : Word), addr ≠ 0xFFFF →
    ∃ t, s.writeWord addr v = .ok t ∧ t = { s with mem := t.mem } ∧
      (Memory.wf s.mem = true → (t.readByte addr).toNat = v.toNat % 256 ∧
        (t.readByte (addr + 1)).toNat = v.toNat / 256 ∧ t.readWord addr = .ok v) ∧
      ∀ b, b ≠ addr → b ≠ addr + 1 → t.readByte b = s.readByte b

/-- A word access whose low byte is at `0xFFFF` is fatal, read or write: the spec's decision D3 (log entry 3). -/
def Obligations.WordAccessAtTopIsFatal : Prop :=
  ∀ (s : State) (v : Word),
    s.readWord 0xFFFF = .error (.wordAccessOutOfRange 0xFFFF) ∧
    s.writeWord 0xFFFF v = .error (.wordAccessOutOfRange 0xFFFF)

/-- Memory is its bytes: two memories in canonical form that read alike at every address are one list. The
list form is the model's choice (log entry 18). -/
def Obligations.CanonicalMemoriesReadingAlikeAreEqual : Prop :=
  ∀ m n : List Host.Cell, Memory.wf m = true → Memory.wf n = true →
    (∀ addr : Word, Memory.read m addr.toNat = Memory.read n addr.toNat) → m = n

/-! ## Instruction fetch and decoding -/

/-- R71: `FetchByte()` gives the byte at `pc` and moves `pc` on by one modulo 2^16, and does nothing else; it
cannot fail (it is no `Except`). -/
def Obligations.FetchByteAdvancesPcByOne : Prop :=
  ∀ s : State, s.fetchByte.1 = s.readByte s.pc ∧ s.fetchByte.2 = { s with pc := s.fetchByte.2.pc } ∧
    s.fetchByte.2.pc.toNat = (s.pc.toNat + 1) % 65536

/-- `FetchWord()` gives the little-endian word at `pc` and moves `pc` on by two modulo 2^16; with
`pc = 0xFFFF` it is fatal, the spec's decisions D3 and D6 (log entries 3 and 6). -/
def Obligations.FetchWordAdvancesPcByTwo : Prop :=
  ∀ s : State,
    (s.pc ≠ 0xFFFF → ∃ w t, s.fetchWord = .ok (w, t) ∧ t = { s with pc := t.pc } ∧
      t.pc.toNat = (s.pc.toNat + 2) % 65536 ∧
      w.toNat = (s.readByte s.pc).toNat + 256 * (s.readByte (s.pc + 1)).toNat) ∧
    (s.pc = 0xFFFF → s.fetchWord = .error (.wordAccessOutOfRange 0xFFFF))

/-- Every instruction is decoded from its own bytes, whatever follows them: no operand bit is dropped. -/
def Obligations.DecodeOfEncodeIsTheInstruction : Prop :=
  ∀ (i : Instr) (rest : List Byte), decode (encode i ++ rest) = .ok (i, rest)

/-- Every decoded instruction's bytes are the bytes it was decoded from: each word has one meaning. -/
def Obligations.EncodeOfDecodeIsTheBytes : Prop :=
  ∀ (bytes rest : List Byte) (i : Instr), decode bytes = .ok (i, rest) → bytes = encode i ++ rest

/-- A few words written out from the spec decode to what they stand for (R59's examples and one store and one
`JSR` more); the opcode bytes are the spec's decision D1 (log entry 1). -/
def Obligations.SampleWordsDecode : Prop :=
  decode [0xA2, 0x10] = .ok (.ldxImm 0x10, []) ∧
  decode [0xB5, 0x32] = .ok (.ldaZpX 0x32, []) ∧
  decode [0xBE, 0x00, 0x20] = .ok (.ldxAbsY 0x2000, []) ∧
  decode [0xB1, 0x20] = .ok (.ldaIndY 0x20, []) ∧
  decode [0x8D, 0x06, 0x06] = .ok (.staAbs 0x0606, []) ∧
  decode [0x20, 0x10, 0xFF] = .ok (.jsr 0xFF10, [])

/-- The bytes that begin an instruction are exactly the 30 the spec lists; each of the other 226, `0xB9` and
`0x99` among them, is an unknown opcode whatever follows it. The bytes are the spec's decisions D1 and D2
(log entries 1 and 2). -/
def Obligations.ExactlyThirtyOpcodeBytes : Prop :=
  ∀ op b1 b2 : Byte,
    (op ∈ ([0x20, 0x81, 0x84, 0x85, 0x86, 0x8C, 0x8D, 0x8E, 0x91, 0x94, 0x95, 0x96, 0x9D, 0xA0, 0xA1, 0xA2,
        0xA4, 0xA5, 0xA6, 0xA9, 0xAC, 0xAD, 0xAE, 0xB1, 0xB4, 0xB5, 0xB6, 0xBC, 0xBD, 0xBE] : List Byte) →
      ∃ i, decodeWindow op b1 b2 = .ok i) ∧
    (op ∉ ([0x20, 0x81, 0x84, 0x85, 0x86, 0x8C, 0x8D, 0x8E, 0x91, 0x94, 0x95, 0x96, 0x9D, 0xA0, 0xA1, 0xA2,
        0xA4, 0xA5, 0xA6, 0xA9, 0xAC, 0xAD, 0xAE, 0xB1, 0xB4, 0xB5, 0xB6, 0xBC, 0xBD, 0xBE] : List Byte) →
      decodeWindow op b1 b2 = .error (.unknownOpcode op))

/-- Every entry of the table is legal, so no byte in memory raises `IllegalCombination` (R58); the check is there
all the same: an illegal entry of any table is fatal, whatever `pc` is and before an operand is fetched.
Where the check stands, and that a store with Immediate and `Jsr` off Absolute are illegal, is the spec's
decision D19 (R172, log entry 10). -/
def Obligations.IllegalCombinationIsUnreachable : Prop :=
  (∀ e ∈ opcodeTable, legal e.operation e.mode e.register = true) ∧
  (∀ (s : State) (op : Byte), step s ≠ .fault (.illegalCombination op)) ∧
  (∀ (t : List OpcodeEntry) (e : OpcodeEntry) (s : State), lookup t (s.readByte s.pc) = some e →
    legal e.operation e.mode e.register = false →
    dispatchStep t s = .fault (.illegalCombination (s.readByte s.pc)))

/-- The legality table, mode by mode: the loads of A, X, Y, then the stores of A, X, Y; `Jsr` with Absolute
only. What it says of stores with Immediate and of `Jsr` is the spec's decision D19 (log entry 10). -/
def Obligations.LegalityTable : Prop :=
  let row (m : Mode) : List Bool :=
    [legal .load m (some .a), legal .load m (some .x), legal .load m (some .y),
      legal .store m (some .a), legal .store m (some .x), legal .store m (some .y)]
  row .immediate = [true, true, true, false, false, false] ∧
  row .zeroPage = [true, true, true, true, true, true] ∧
  row .zeroPageX = [true, false, true, true, false, true] ∧
  row .zeroPageY = [false, true, false, false, true, false] ∧
  row .absolute = [true, true, true, true, true, true] ∧
  row .absoluteX = [true, false, true, true, false, true] ∧
  row .absoluteY = [false, true, false, false, true, false] ∧
  row .indirectX = [true, false, false, true, false, false] ∧
  row .indirectY = [true, false, false, true, false, false] ∧
  ∀ m : Mode, legal .jsr m none = decide (m = .absolute)

/-! ## The resolver -/

/-- R74, R75, R76: the zero-page modes fetch one byte; the address is that byte plus the index modulo 2^8,
below `0x0100`, and never crosses. -/
def Obligations.ZeroPageModesWrapInTheZeroPage : Prop :=
  ∀ s : State, let d := s.readByte s.pc; let s1 := { s with pc := s.pc + 1 };
    (∃ form addr, fetchOperand .zeroPage s = .ok (.address form, s1) ∧
      resolve form s1 = .ok ⟨addr, false⟩ ∧ addr.toNat = d.toNat) ∧
    (∃ form addr, fetchOperand .zeroPageX s = .ok (.address form, s1) ∧
      resolve form s1 = .ok ⟨addr, false⟩ ∧ addr.toNat = (d.toNat + s.x.toNat) % 256) ∧
    (∃ form addr, fetchOperand .zeroPageY s = .ok (.address form, s1) ∧
      resolve form s1 = .ok ⟨addr, false⟩ ∧ addr.toNat = (d.toNat + s.y.toNat) % 256)

/-- R77, R78, R79: the absolute modes fetch one little-endian word; the address is that word plus the index
modulo 2^16, and it crossed when its low byte is below the index. -/
def Obligations.AbsoluteModesWrapAtTheTop : Prop :=
  ∀ s : State, s.pc ≠ 0xFFFF →
    let base := (s.readByte s.pc).toNat + 256 * (s.readByte (s.pc + 1)).toNat
    let s1 := { s with pc := s.pc + 2 }
    (∃ form addr, fetchOperand .absolute s = .ok (.address form, s1) ∧
      resolve form s1 = .ok ⟨addr, false⟩ ∧ addr.toNat = base) ∧
    (∃ form addr, fetchOperand .absoluteX s = .ok (.address form, s1) ∧
      resolve form s1 = .ok ⟨addr, decide (addr.toNat % 256 < s.x.toNat)⟩ ∧
      addr.toNat = (base + s.x.toNat) % 65536) ∧
    (∃ form addr, fetchOperand .absoluteY s = .ok (.address form, s1) ∧
      resolve form s1 = .ok ⟨addr, decide (addr.toNat % 256 < s.y.toNat)⟩ ∧
      addr.toNat = (base + s.y.toNat) % 65536)

/-- The indirect modes read a little-endian pointer in the zero page; IndirectX adds `x` to its address modulo
2^8, IndirectY adds `y` to its value modulo 2^16. The pointer at `0x00FF` takes its high byte from
`0x0100`: the spec's decision D13 (log entry 12). -/
def Obligations.IndirectModesReadAZeroPagePointer : Prop :=
  ∀ s : State, let d := s.readByte s.pc; let s1 := { s with pc := s.pc + 1 };
    (∃ form addr ptr, fetchOperand .indirectX s = .ok (.address form, s1) ∧
      resolve form s1 = .ok ⟨addr, false⟩ ∧ ptr.toNat = (d.toNat + s.x.toNat) % 256 ∧
      addr.toNat = (s.readByte ptr).toNat + 256 * (s.readByte (ptr + 1)).toNat) ∧
    (∃ form addr ptr, fetchOperand .indirectY s = .ok (.address form, s1) ∧
      resolve form s1 = .ok ⟨addr, decide (addr.toNat % 256 < s.y.toNat)⟩ ∧ ptr.toNat = d.toNat ∧
      addr.toNat =
        ((s.readByte ptr).toNat + 256 * (s.readByte (ptr + 1)).toNat + s.y.toNat) % 65536)

/-- The page-crossing test is the carry out of the base's low byte, and is seen in the high byte of the sum; a
zero index never crosses. The rule marks this as derived. -/
def Obligations.PageCrossIsTheCarry : Prop :=
  ∀ (base : Word) (index : Byte),
    (pageCross (base + zext16 index) index = true ↔ 256 ≤ base.toNat % 256 + index.toNat) ∧
    (pageCross (base + zext16 index) index = true ↔ hiByte (base + zext16 index) ≠ hiByte base) ∧
    pageCross base 0 = false

/-- R91 and R121: the two cost tables. -/
def Obligations.CycleCostTables : Prop :=
  ∀ (d : Byte) (w : Word) (c : Bool),
    (immediateLoadCycles = 2 ∧ loadCycles (.zeroPage d) c = 3 ∧ loadCycles (.zeroPageX d) c = 4 ∧
      loadCycles (.zeroPageY d) c = 4 ∧ loadCycles (.absolute w) c = 4 ∧
      loadCycles (.absoluteX w) c = 4 + c.toNat ∧ loadCycles (.absoluteY w) c = 4 + c.toNat ∧
      loadCycles (.indirectX d) c = 6 ∧ loadCycles (.indirectY d) c = 5 + c.toNat) ∧
    (storeCycles (.zeroPage d) = 3 ∧ storeCycles (.zeroPageX d) = 4 ∧ storeCycles (.zeroPageY d) = 4 ∧
      storeCycles (.absolute w) = 4 ∧ storeCycles (.absoluteX w) = 5 ∧ storeCycles (.absoluteY w) = 5 ∧
      storeCycles (.indirectX d) = 6 ∧ storeCycles (.indirectY d) = 6)

/-! ## The load family -/

/-- R90: for any register and any mode that resolves an address, a load puts the byte at the resolved address
into the register, sets `Z` and `N` from it, moves `pc` past the instruction and reports the mode's cost;
memory, the other registers and the other flags are unchanged. The Immediate mode loads the operand byte.
The operand word of an absolute mode is out of range when the opcode byte stands at `0xFFFE`, and nothing
else is fatal. -/
def Obligations.LoadFamilyRule : Prop :=
  (∀ (r : Reg) (v : Byte) (s : State), ∃ t, loadImmediate r v s = .next t ∧
    t.getReg r = v ∧ t.flagZ = decide (v = 0) ∧ t.flagN = decide (v &&& 0x80 ≠ 0) ∧
    t.pc = s.pc + 2 ∧ t.cycles = 2 ∧ (∀ q, q ≠ r → t.getReg q = s.getReg q) ∧
    t = { s with pc := t.pc, a := t.a, x := t.x, y := t.y, flagZ := t.flagZ, flagN := t.flagN,
                 cycles := t.cycles }) ∧
  (∀ (r : Reg) (form : AddrForm) (s : State),
    ¬ (form.mode.format = .opA16 ∧ s.pc = 0xFFFE) →
    ∃ t res v, resolve form s = .ok res ∧ v = s.readByte res.addr ∧ loadFrom r form s = .next t ∧
      t.getReg r = v ∧ t.flagZ = decide (v = 0) ∧ t.flagN = decide (v &&& 0x80 ≠ 0) ∧
      t.pc = s.pc + BitVec.ofNat 16 form.mode.format.length ∧ t.cycles = loadCycles form res.crossed ∧
      (∀ q, q ≠ r → t.getReg q = s.getReg q) ∧
      t = { s with pc := t.pc, a := t.a, x := t.x, y := t.y, flagZ := t.flagZ, flagN := t.flagN,
                   cycles := t.cycles }) ∧
  (∀ (r : Reg) (form : AddrForm) (s : State), form.mode.format = .opA16 → s.pc = 0xFFFE →
    loadFrom r form s = .fault (.wordAccessOutOfRange 0xFFFF))

/-- `LDA #$nn`, `LDX #$nn`, `LDY #$nn` (the pseudocode of R92, R99, R104). -/
def Obligations.LoadImmediateCompletes : Prop :=
  ∀ (d : Byte) (s : State),
    exec (.ldaImm d) s = .next
      { s with pc := s.pc + 2, a := d, flagZ := decide (d = 0), flagN := d.getLsbD 7, cycles := 2 } ∧
    exec (.ldxImm d) s = .next
      { s with pc := s.pc + 2, x := d, flagZ := decide (d = 0), flagN := d.getLsbD 7, cycles := 2 } ∧
    exec (.ldyImm d) s = .next
      { s with pc := s.pc + 2, y := d, flagZ := decide (d = 0), flagN := d.getLsbD 7, cycles := 2 }

/-- `LDA $nn`, `LDX $nn`, `LDY $nn` (the pseudocode of R93, R100, R105). -/
def Obligations.LoadZeroPageCompletes : Prop :=
  ∀ (d v : Byte) (s : State), v = s.readByte (zext16 d) →
    exec (.ldaZp d) s = .next
      { s with pc := s.pc + 2, a := v, flagZ := decide (v = 0), flagN := v.getLsbD 7, cycles := 3 } ∧
    exec (.ldxZp d) s = .next
      { s with pc := s.pc + 2, x := v, flagZ := decide (v = 0), flagN := v.getLsbD 7, cycles := 3 } ∧
    exec (.ldyZp d) s = .next
      { s with pc := s.pc + 2, y := v, flagZ := decide (v = 0), flagN := v.getLsbD 7, cycles := 3 }

/-- `LDA $nn,X`, `LDX $nn,Y`, `LDY $nn,X` (the pseudocode of R94, R101, R106). -/
def Obligations.LoadZeroPageIndexedCompletes : Prop :=
  ∀ (d v w : Byte) (s : State), v = s.readByte (zext16 (d + s.x)) → w = s.readByte (zext16 (d + s.y)) →
    exec (.ldaZpX d) s = .next
      { s with pc := s.pc + 2, a := v, flagZ := decide (v = 0), flagN := v.getLsbD 7, cycles := 4 } ∧
    exec (.ldxZpY d) s = .next
      { s with pc := s.pc + 2, x := w, flagZ := decide (w = 0), flagN := w.getLsbD 7, cycles := 4 } ∧
    exec (.ldyZpX d) s = .next
      { s with pc := s.pc + 2, y := v, flagZ := decide (v = 0), flagN := v.getLsbD 7, cycles := 4 }

/-- `LDA $nnnn`, `LDX $nnnn`, `LDY $nnnn` (the pseudocode of R95, R102, R107). -/
def Obligations.LoadAbsoluteCompletes : Prop :=
  ∀ (addr : Word) (v : Byte) (s : State), s.pc ≠ 0xFFFE → v = s.readByte addr →
    exec (.ldaAbs addr) s = .next
      { s with pc := s.pc + 3, a := v, flagZ := decide (v = 0), flagN := v.getLsbD 7, cycles := 4 } ∧
    exec (.ldxAbs addr) s = .next
      { s with pc := s.pc + 3, x := v, flagZ := decide (v = 0), flagN := v.getLsbD 7, cycles := 4 } ∧
    exec (.ldyAbs addr) s = .next
      { s with pc := s.pc + 3, y := v, flagZ := decide (v = 0), flagN := v.getLsbD 7, cycles := 4 }

/-- `LDA $nnnn,X`, `LDX $nnnn,Y`, `LDY $nnnn,X`: one cycle more when the low byte of the address is below the
index (the pseudocode of R96, R103, R108). -/
def Obligations.LoadAbsoluteIndexedCompletes : Prop :=
  ∀ (base : Word) (v w : Byte) (s : State), s.pc ≠ 0xFFFE →
    v = s.readByte (base + zext16 s.x) → w = s.readByte (base + zext16 s.y) →
    exec (.ldaAbsX base) s = .next
      { s with pc := s.pc + 3, a := v, flagZ := decide (v = 0), flagN := v.getLsbD 7,
               cycles := if loByte (base + zext16 s.x) < s.x then 5 else 4 } ∧
    exec (.ldxAbsY base) s = .next
      { s with pc := s.pc + 3, x := w, flagZ := decide (w = 0), flagN := w.getLsbD 7,
               cycles := if loByte (base + zext16 s.y) < s.y then 5 else 4 } ∧
    exec (.ldyAbsX base) s = .next
      { s with pc := s.pc + 3, y := v, flagZ := decide (v = 0), flagN := v.getLsbD 7,
               cycles := if loByte (base + zext16 s.x) < s.x then 5 else 4 }

/-- `LDA ($nn,X)` (the pseudocode of R97); the pointer at `0x00FF` reads on into `0x0100`, the spec's decision
D13 (log entry 12). -/
def Obligations.LdaIndirectXCompletes : Prop :=
  ∀ (d v : Byte) (ptr addr : Word) (s : State), ptr = zext16 (d + s.x) →
    addr = wordOf (s.readByte ptr) (s.readByte (ptr + 1)) → v = s.readByte addr →
    exec (.ldaIndX d) s = .next
      { s with pc := s.pc + 2, a := v, flagZ := decide (v = 0), flagN := v.getLsbD 7, cycles := 6 }

/-- `LDA ($nn),Y`: one cycle more when the low byte of the address is below `y` (the pseudocode of R98); the
pointer at `0x00FF` reads on into `0x0100`, the spec's decision D13 (log entry 12). -/
def Obligations.LdaIndirectYCompletes : Prop :=
  ∀ (d v : Byte) (ptr addr : Word) (s : State), ptr = zext16 d →
    addr = wordOf (s.readByte ptr) (s.readByte (ptr + 1)) + zext16 s.y → v = s.readByte addr →
    exec (.ldaIndY d) s = .next
      { s with pc := s.pc + 2, a := v, flagZ := decide (v = 0), flagN := v.getLsbD 7,
               cycles := if loByte addr < s.y then 6 else 5 }

/-! ## The store family -/

/-- R120: for any register and any mode that resolves an address, a store writes the register's byte at the
resolved address, moves `pc` past the instruction and reports the mode's cost; every other byte, every
register and every flag is unchanged. The operand word of an absolute mode is out of range when the opcode
byte stands at `0xFFFE`, and nothing else is fatal. -/
def Obligations.StoreFamilyRule : Prop :=
  (∀ (r : Reg) (form : AddrForm) (s : State),
    ¬ (form.mode.format = .opA16 ∧ s.pc = 0xFFFE) →
    ∃ t res, resolve form s = .ok res ∧ storeTo r form s = .next t ∧
      WroteByte s t res.addr (s.getReg r) ∧
      t = { s with pc := s.pc + BitVec.ofNat 16 form.mode.format.length, mem := t.mem,
                   cycles := storeCycles form }) ∧
  (∀ (r : Reg) (form : AddrForm) (s : State), form.mode.format = .opA16 → s.pc = 0xFFFE →
    storeTo r form s = .fault (.wordAccessOutOfRange 0xFFFF))

/-- `STA $nn`, `STX $nn`, `STY $nn` (the pseudocode of R122, R128, R131). -/
def Obligations.StoreZeroPageCompletes : Prop :=
  ∀ (d : Byte) (s : State),
    (∃ t, exec (.staZp d) s = .next t ∧ WroteByte s t (zext16 d) s.a ∧
      t = { s with pc := s.pc + 2, mem := t.mem, cycles := 3 }) ∧
    (∃ t, exec (.stxZp d) s = .next t ∧ WroteByte s t (zext16 d) s.x ∧
      t = { s with pc := s.pc + 2, mem := t.mem, cycles := 3 }) ∧
    (∃ t, exec (.styZp d) s = .next t ∧ WroteByte s t (zext16 d) s.y ∧
      t = { s with pc := s.pc + 2, mem := t.mem, cycles := 3 })

/-- `STA $nn,X`, `STX $nn,Y`, `STY $nn,X` (the pseudocode of R123, R129, R132). -/
def Obligations.StoreZeroPageIndexedCompletes : Prop :=
  ∀ (d : Byte) (s : State),
    (∃ t, exec (.staZpX d) s = .next t ∧ WroteByte s t (zext16 (d + s.x)) s.a ∧
      t = { s with pc := s.pc + 2, mem := t.mem, cycles := 4 }) ∧
    (∃ t, exec (.stxZpY d) s = .next t ∧ WroteByte s t (zext16 (d + s.y)) s.x ∧
      t = { s with pc := s.pc + 2, mem := t.mem, cycles := 4 }) ∧
    (∃ t, exec (.styZpX d) s = .next t ∧ WroteByte s t (zext16 (d + s.x)) s.y ∧
      t = { s with pc := s.pc + 2, mem := t.mem, cycles := 4 })

/-- `STA $nnnn`, `STX $nnnn`, `STY $nnnn` (the pseudocode of R124, R130, R133). -/
def Obligations.StoreAbsoluteCompletes : Prop :=
  ∀ (addr : Word) (s : State), s.pc ≠ 0xFFFE →
    (∃ t, exec (.staAbs addr) s = .next t ∧ WroteByte s t addr s.a ∧
      t = { s with pc := s.pc + 3, mem := t.mem, cycles := 4 }) ∧
    (∃ t, exec (.stxAbs addr) s = .next t ∧ WroteByte s t addr s.x ∧
      t = { s with pc := s.pc + 3, mem := t.mem, cycles := 4 }) ∧
    (∃ t, exec (.styAbs addr) s = .next t ∧ WroteByte s t addr s.y ∧
      t = { s with pc := s.pc + 3, mem := t.mem, cycles := 4 })

/-- `STA $nnnn,X`: 5 cycles whether or not a page is crossed (the pseudocode of R125). -/
def Obligations.StaAbsoluteXCompletes : Prop :=
  ∀ (base : Word) (s : State), s.pc ≠ 0xFFFE →
    ∃ t, exec (.staAbsX base) s = .next t ∧ WroteByte s t (base + zext16 s.x) s.a ∧
      t = { s with pc := s.pc + 3, mem := t.mem, cycles := 5 }

/-- `STA ($nn,X)` and `STA ($nn),Y`: 6 cycles each (the pseudocode of R126, R127); the pointer at `0x00FF`
reads on into `0x0100`, the spec's decision D13 (log entry 12). -/
def Obligations.StaIndirectCompletes : Prop :=
  ∀ (d : Byte) (p q : Word) (s : State), p = zext16 (d + s.x) → q = zext16 d →
    (∃ t, exec (.staIndX d) s = .next t ∧
      WroteByte s t (wordOf (s.readByte p) (s.readByte (p + 1))) s.a ∧
      t = { s with pc := s.pc + 2, mem := t.mem, cycles := 6 }) ∧
    (∃ t, exec (.staIndY d) s = .next t ∧
      WroteByte s t (wordOf (s.readByte q) (s.readByte (q + 1)) + zext16 s.y) s.a ∧
      t = { s with pc := s.pc + 2, mem := t.mem, cycles := 6 })

/-- The two legal store pairs that no opcode byte selects behave as the family's rule says, at 5 cycles: that
no byte selects them is the spec's decisions D1 and D2 (log entries 1 and 2). -/
def Obligations.LegalStorePairsWithoutAnOpcode : Prop :=
  ∀ (base : Word) (s : State), s.pc ≠ 0xFFFE →
    legal .store .absoluteX (some .y) = true ∧ legal .store .absoluteY (some .x) = true ∧
    (∀ e ∈ opcodeTable, ¬ (e.operation = .store ∧ e.mode = .absoluteX ∧ e.register = some .y) ∧
      ¬ (e.operation = .store ∧ e.mode = .absoluteY ∧ e.register = some .x)) ∧
    (∃ t, storeTo .y (.absoluteX base) s = .next t ∧ WroteByte s t (base + zext16 s.x) s.y ∧
      t = { s with pc := s.pc + 3, mem := t.mem, cycles := 5 }) ∧
    (∃ t, storeTo .x (.absoluteY base) s = .next t ∧ WroteByte s t (base + zext16 s.y) s.x ∧
      t = { s with pc := s.pc + 3, mem := t.mem, cycles := 5 })

/-! ## Jump to subroutine -/

/-- `JSR $nnnn`: `sp` down by two, the address of the instruction's last byte pushed low byte first at the two
addresses above the new `sp`, `pc` at the target, nothing else changed, 6 cycles. Where the bytes go is the
spec's decisions D4 and D5 (log entries 4 and 5). -/
def Obligations.JsrCompletes : Prop :=
  ∀ (target base : Word) (s : State), s.pc ≠ 0xFFFE → base = zext16 (s.sp - 2) + 1 →
    ∃ t, exec (.jsr target) s = .next t ∧
      t = { s with pc := target, sp := s.sp - 2, mem := t.mem, cycles := 6 } ∧
      (Memory.wf s.mem = true → t.readByte base = loByte (s.pc + 2) ∧
        t.readByte (base + 1) = hiByte (s.pc + 2)) ∧
      ∀ b, b ≠ base → b ≠ base + 1 → t.readByte b = s.readByte b

/-- Where `JSR` writes, in terms of `sp` before it: the low byte just below, the high byte at `sp`, but for
`sp` 1 and 0, which reach into page 1. The layout is the spec's decisions D4 and D5 (log entries 4 and
5). -/
def Obligations.PushAddressesFromTheOldSp : Prop :=
  (∀ sp : Byte, 2 ≤ sp.toNat → (pushAddress (sp - 2)).toNat = sp.toNat - 1) ∧
  (pushAddress (0x01 - 2)).toNat = 0x0100 ∧ (pushAddress (0x00 - 2)).toNat = 0x00FF

/-! ## Frames and rules over every instruction -/

/-- What an instruction leaves as it was: each data register but a load's target, `sp` but for `JSR`, the
inert flags always, `Z` and `N` but for loads, the status always, and every byte of memory but the one a
store resolves to and the two `JSR` pushes to. -/
def Obligations.NothingElseChanges : Prop :=
  ∀ (i : Instr) (s t : State), exec i s = .next t →
    (∀ r, ¬ (i.operation = .load ∧ i.register = some r) → t.getReg r = s.getReg r) ∧
    (i.operation ≠ .jsr → t.sp = s.sp) ∧
    (t.flagC = s.flagC ∧ t.flagI = s.flagI ∧ t.flagD = s.flagD ∧ t.flagB = s.flagB ∧ t.flagV = s.flagV) ∧
    (i.operation ≠ .load → t.flagZ = s.flagZ ∧ t.flagN = s.flagN) ∧
    t.status = s.status ∧
    (i.operation = .load → ∀ b, t.readByte b = s.readByte b) ∧
    (∀ form res, storeForm i = some form → resolve form s = .ok res →
      ∀ b, b ≠ res.addr → t.readByte b = s.readByte b) ∧
    (i.operation = .jsr → ∀ b, b ≠ zext16 (s.sp - 2) + 1 → b ≠ zext16 (s.sp - 2) + 2 →
      t.readByte b = s.readByte b)

/-- R54: the length is decided by the mode, the encoding has it, and an instruction that does not write `pc`
otherwise leaves it at the opcode's address plus the length, modulo 2^16. -/
def Obligations.PcAdvancesByTheModesLength : Prop :=
  (∀ i : Instr, i.length = (match i.mode with
      | .immediate | .zeroPage | .zeroPageX | .zeroPageY | .indirectX | .indirectY => 2
      | .absolute | .absoluteX | .absoluteY => 3) ∧ (encode i).length = i.length) ∧
  (∀ (i : Instr) (s t : State), i.operation ≠ .jsr → exec i s = .next t →
    t.pc.toNat = (s.pc.toNat + i.length) % 65536)

/-- R16: every load writes `Z` and `N` from the byte it loads, which is then in the target register (so never
both are set); stores and `JSR` write no flag; no instruction writes `C`, `I`, `D`, `B`, `V`; `reset`
clears all seven; the owner's write to a flag stays; and no instruction's behaviour depends on any flag:
in states that differ in flags only it ends alike, in states that differ in flags only. -/
def Obligations.OnlyLoadsWriteFlagsAndNothingReadsThem : Prop :=
  (∀ (i : Instr) (s t : State), exec i s = .next t →
    (∀ r, i.operation = .load → i.register = some r →
      (t.flagZ = true ↔ t.getReg r = 0x00) ∧ (t.flagN = true ↔ 128 ≤ (t.getReg r).toNat)) ∧
    (i.operation ≠ .load → t.flagZ = s.flagZ ∧ t.flagN = s.flagN) ∧
    (t.flagC = s.flagC ∧ t.flagI = s.flagI ∧ t.flagD = s.flagD ∧ t.flagB = s.flagB ∧ t.flagV = s.flagV)) ∧
  (∀ (i : Instr) (s s' : State), s.noFlags = s'.noFlags →
    (∀ t, exec i s = .next t → ∃ t', exec i s' = .next t' ∧ t.noFlags = t'.noFlags) ∧
    (∀ f, exec i s = .fault f → exec i s' = .fault f) ∧
    (∀ r, exec i s = .refused r → exec i s' = .refused r)) ∧
  (∀ (s : State) (f : Flag), (operate .reset s).2.getFlag f = false) ∧
  (∀ (s : State) (f : Flag) (b : Bool), s.status = .ready → (operate (.writeFlag f b) s).2.getFlag f = b)

/-- An instruction is fatal exactly when it is three bytes long and its opcode byte stands at `0xFFFE`, and is
never refused: the spec's decisions D3 and D6 (log entries 3 and 6). -/
def Obligations.InstructionsFaultOnlyAtTheTop : Prop :=
  ∀ (i : Instr) (s : State),
    (∀ f, exec i s = .fault f ↔ (i.length = 3 ∧ s.pc = 0xFFFE ∧ f = .wordAccessOutOfRange 0xFFFF)) ∧
    (∀ r, exec i s ≠ .refused r)

/-! ## The step -/

/-- When the bytes at `pc` decode to an instruction, a step from `READY` is that instruction, run; nothing is
added around it. -/
def Obligations.StepRunsTheDecodedInstruction : Prop :=
  ∀ (s : State) (i : Instr) (rest : List Byte), s.status = .ready →
    decode [s.readByte s.pc, s.readByte (s.pc + 1), s.readByte (s.pc + 2)] = .ok (i, rest) →
    step s = exec i s

/-- R150: `step` runs only in `READY`, does what the dispatcher's pseudocode does byte by byte over the Opcode
Table, and reports a cost from 2 to 6. -/
def Obligations.StepIsTheDispatcherPseudocode : Prop :=
  ∀ s : State,
    (s.status = .ready → step s = dispatchStep opcodeTable s) ∧
    (s.status ≠ .ready → ∃ r, step s = .refused r) ∧
    (∀ t, step s = .next t → 2 ≤ t.cycles ∧ t.cycles ≤ 6)

/-- A step completes exactly when the machine is ready, the opcode byte is known, and no operand word starts at
`0xFFFF` (the last is the spec's decision D3, log entry 3). -/
def Obligations.StepCompletesExactlyWhenItCan : Prop :=
  ∀ s : State, (∃ t, step s = .next t) ↔ s.canStep = true

/-- Which fatal condition a step raises: the unknown byte with the address it came from, before anything else
is looked at, or the operand word out of range (the latter and the order are the spec's decisions D3 and
D10, log entries 3 and 10). -/
def Obligations.StepFaultsExactlyWhen : Prop :=
  ∀ (s : State) (f : Fault), step s = .fault f ↔
    s.status = .ready ∧
      ((s.opcodeKnown = false ∧ f = .unknownOpcode (s.readByte s.pc) s.pc) ∨
        (s.operandOutOfRange = true ∧ f = .wordAccessOutOfRange 0xFFFF))

/-- What a fatal condition leaves: the status holds the cause, `pc` is past the opcode byte, no cost is
reported, everything else is as before the step; a step's cause is coded 1 or 3. The codes are 1 for
`UnknownOpcode`, 2 for `IllegalCombination`, 3 for `WordAccessOutOfRange` (R170). The status and the
codes are the spec's decision D9 (log entries 9 and 23); `cycles` is the model's field (log entry 16). -/
def Obligations.FatalStepChangesOnlyPcAndStatus : Prop :=
  (∀ (s : State) (f : Fault), step s = .fault f →
    operate .step s = (.fatal f, { s with pc := s.pc + 1, status := .faulted f, cycles := 0 }) ∧
    (f.code = 1 ∨ f.code = 3)) ∧
  (∀ f : Fault,
    (f.code = 1 ↔ ∃ op addr, f = .unknownOpcode op addr) ∧
    (f.code = 2 ↔ ∃ op, f = .illegalCombination op) ∧
    (f.code = 3 ↔ ∃ addr, f = .wordAccessOutOfRange addr))

/-- The invariant is kept by every step that completes. It also speaks of the model's own field `cycles` (log
entry 16) and of the list form of memory (log entry 18). -/
def Obligations.StepKeepsTheInvariant : Prop :=
  ∀ s t : State, s.Inv → step s = .next t → t.Inv

/-- The invariant is kept by every operation of the machine's owner, fatal ones included. It also speaks of the
model's own field `cycles` (log entry 16) and of the list form of memory (log entry 18). -/
def Obligations.EveryOperationKeepsTheInvariant : Prop :=
  ∀ (op : HostOp) (s : State), s.Inv → (operate op s).2.Inv

/-! ## The execution loop -/

/-- A budget of 0 runs no step and returns 0: the spec's decision D7 (log entry 7). -/
def Obligations.ExecuteZeroDoesNothing : Prop :=
  ∀ s : State, s.status = .ready → execute 0 s = .finished 0 s

/-- The `while` loop of `execute`: with a budget left, one step, then the rest of the budget, the totals added;
a fatal condition ends the run. The test before each step and the unbounded counts are the spec's
decisions D7 and D8 (log entries 7 and 8). -/
def Obligations.ExecuteIsAStepThenTheRest : Prop :=
  ∀ (n : Nat) (s : State), s.status = .ready → 0 < n →
    (∀ f, step s = .fault f → execute n s = .fatal f (s.enterFatal f)) ∧
    (∀ t, step s = .next t →
      execute n s = match execute (n - t.cycles) t with
        | .finished total u => .finished (t.cycles + total) u
        | .fatal f u => .fatal f u
        | .refused r u => .refused r u)

/-- A run from `READY` ends in one of two ways: with the budget met, overshot by at most 5, at an instruction
boundary in `READY`; or fatally, with the status `FAULTED`. The bound of 5 is marked as derived by the
rule. -/
def Obligations.EveryRunMeetsItsBudgetOrIsFatal : Prop :=
  ∀ (n : Nat) (s : State), s.status = .ready → 0 < n →
    (∃ total t, execute n s = .finished total t ∧ n ≤ total ∧ total ≤ n + 5 ∧ t.status = .ready) ∨
    (∃ f t, execute n s = .fatal f t ∧ t.status = .faulted f)

/-! ## Direct access -/

/-- In `READY` the owner reads back what was written, to any register, flag or byte of memory; a write answers
that it is done and changes what it names and nothing else: the fields of its kind are said one by one,
every other field is that of the state before. A read changes nothing. -/
def Obligations.DirectAccessReadsBackWhatWasWritten : Prop :=
  ∀ s : State, s.status = .ready →
    (∀ v, operate (.writePc v) s = (.done, { s with pc := v }) ∧
      operate .readPc (operate (.writePc v) s).2 = (.word v, { s with pc := v })) ∧
    (∀ v, operate (.writeSp v) s = (.done, { s with sp := v }) ∧
      operate .readSp (operate (.writeSp v) s).2 = (.byte v, { s with sp := v })) ∧
    (∀ r v, ∃ t, operate (.writeReg r v) s = (.done, t) ∧ t = { s with a := t.a, x := t.x, y := t.y } ∧
      operate (.readReg r) t = (.byte v, t) ∧
      ∀ q, q ≠ r → operate (.readReg q) t = (.byte (s.getReg q), t)) ∧
    (∀ f b, ∃ t, operate (.writeFlag f b) s = (.done, t) ∧
      t = { s with flagC := t.flagC, flagZ := t.flagZ, flagI := t.flagI, flagD := t.flagD,
                   flagB := t.flagB, flagV := t.flagV, flagN := t.flagN } ∧
      operate (.readFlag f) t = (.bit b, t) ∧
      ∀ g, g ≠ f → operate (.readFlag g) t = (.bit (s.getFlag g), t)) ∧
    (∀ addr v, ∃ t, operate (.writeMem addr v) s = (.done, t) ∧ t = { s with mem := t.mem } ∧
      (Memory.wf s.mem = true → operate (.readMem addr) t = (.byte v, t)) ∧
      ∀ b, b ≠ addr → operate (.readMem b) t = (.byte (s.readByte b), t))
end

