-- ==== Sys2Proof/Laws/Memory.lean ====
section
/-! SUPPORT. Laws/Memory.lean: reads after writes, and the canonical form. -/

namespace Sys2Proof.Machine

/-- A write leaves every other address as it was, in any list of cells. -/
theorem Memory.read_write_other {m : List Host.Cell} {a b : Nat} (v : Byte) (h : b ≠ a) :
    Memory.read (Memory.write m a v) b = Memory.read m b := by
  induction m with
  | nil => by_cases hv : v = 0#8 <;> simp [Memory.write, Memory.read, hv, h]
  | cons c rest ih =>
    obtain ⟨k, w⟩ := c
    simp only [Memory.write]
    split
    · by_cases hv : v = 0#8 <;> simp [Memory.read, hv, h]
    · split
      · subst a
        by_cases hv : v = 0#8 <;> simp [Memory.read, hv, h]
      · simp only [Memory.read, ih]

theorem Memory.wfFrom_mono {m : List Host.Cell} {lo lo' : Nat} (h : lo' ≤ lo)
    (hm : Memory.wfFrom lo m = true) : Memory.wfFrom lo' m = true := by
  cases m with
  | nil => rfl
  | cons c rest =>
    obtain ⟨k, w⟩ := c
    simp only [Memory.wfFrom, Bool.and_eq_true, decide_eq_true_eq] at hm ⊢
    exact ⟨⟨⟨by omega, hm.1.1.2⟩, hm.1.2⟩, hm.2⟩

/-- Below its first address a canonical list reads as zero. -/
theorem Memory.read_of_lt {m : List Host.Cell} {lo a : Nat} (hm : Memory.wfFrom lo m = true) (h : a < lo) :
    Memory.read m a = 0#8 := by
  induction m generalizing lo with
  | nil => rfl
  | cons c rest ih =>
    obtain ⟨k, w⟩ := c
    simp only [Memory.wfFrom, Bool.and_eq_true, decide_eq_true_eq] at hm
    have hk : a ≠ k := by omega
    simp only [Memory.read, hk, if_false]
    exact ih hm.2 (by omega)

theorem Memory.read_write_same_from {m : List Host.Cell} {lo a : Nat} (v : Byte)
    (hm : Memory.wfFrom lo m = true) : Memory.read (Memory.write m a v) a = v := by
  induction m generalizing lo with
  | nil => by_cases hv : v = 0#8 <;> simp [Memory.write, Memory.read, hv]
  | cons c rest ih =>
    obtain ⟨k, w⟩ := c
    have hm' := hm
    simp only [Memory.wfFrom, Bool.and_eq_true, decide_eq_true_eq] at hm'
    simp only [Memory.write]
    split
    · by_cases hv : v = 0#8
      · simp only [hv, if_true]
        exact Memory.read_of_lt (lo := k) (Memory.wfFrom_mono (le_refl _) (by
          simpa [Memory.wfFrom] using ⟨⟨hm'.1.1.2, by simpa using hm'.1.2⟩, hm'.2⟩)) ‹_›
      · simp [Memory.read, hv]
    · split
      · subst a
        by_cases hv : v = 0#8
        · simp only [hv, if_true]
          exact Memory.read_of_lt hm'.2 (by omega)
        · simp [Memory.read, hv]
      · rename_i hne
        simp only [Memory.read, hne, if_false]
        exact ih hm'.2

/-- In canonical memory a read after a write to the same address gives the byte written. -/
theorem Memory.read_write_same {m : List Host.Cell} {a : Nat} (v : Byte) (hm : Memory.wf m = true) :
    Memory.read (Memory.write m a v) a = v := Memory.read_write_same_from v hm

theorem Memory.write_wfFrom {m : List Host.Cell} {lo a : Nat} (v : Byte) (ha : a < Config.memSize)
    (hlo : lo ≤ a) (hm : Memory.wfFrom lo m = true) : Memory.wfFrom lo (Memory.write m a v) = true := by
  induction m generalizing lo with
  | nil => by_cases hv : v = 0#8 <;> simp [Memory.write, Memory.wfFrom, hv, ha, hlo]
  | cons c rest ih =>
    obtain ⟨k, w⟩ := c
    have hm' := hm
    simp only [Memory.wfFrom, Bool.and_eq_true, decide_eq_true_eq] at hm'
    simp only [Memory.write]
    split
    · by_cases hv : v = 0#8
      · simpa [hv] using hm
      · simp only [hv, if_false, Memory.wfFrom, Bool.and_eq_true, decide_eq_true_eq]
        exact ⟨⟨⟨hlo, ha⟩, by simpa using hv⟩, ⟨⟨by omega, hm'.1.1.2⟩, hm'.1.2⟩, hm'.2⟩
    · split
      · subst a
        by_cases hv : v = 0#8
        · simp only [hv, if_true]
          exact Memory.wfFrom_mono (by omega) hm'.2
        · simp only [hv, if_false, Memory.wfFrom, Bool.and_eq_true, decide_eq_true_eq]
          exact ⟨⟨⟨hlo, ha⟩, by simpa using hv⟩, hm'.2⟩
      · simp only [Memory.wfFrom, Bool.and_eq_true, decide_eq_true_eq]
        exact ⟨hm'.1, ih (by omega) hm'.2⟩

/-- A write keeps the canonical form. -/
theorem Memory.write_wf {m : List Host.Cell} {a : Nat} (v : Byte) (ha : a < Config.memSize)
    (hm : Memory.wf m = true) : Memory.wf (Memory.write m a v) = true :=
  Memory.write_wfFrom v ha (Nat.zero_le a) hm

/-- Every 16-bit address is below the memory's size (R30). -/
theorem addr_lt_memSize (addr : Word) : addr.toNat < Config.memSize := addr.isLt

/-- The memory after reset is in canonical form. -/
theorem State.reset_mem_wf : Memory.wf State.reset.mem = true := rfl

/-! ## The same for the state's accessors -/

theorem State.writeByte_wf {s : State} (addr : Word) (v : Byte) (h : Memory.wf s.mem = true) :
    Memory.wf (s.writeByte addr v).mem = true := Memory.write_wf v (addr_lt_memSize addr) h

theorem State.readByte_writeByte_same {s : State} (addr : Word) (v : Byte) (h : Memory.wf s.mem = true) :
    (s.writeByte addr v).readByte addr = v := Memory.read_write_same v h

theorem State.readByte_writeByte_other (s : State) {addr b : Word} (v : Byte) (h : b ≠ addr) :
    (s.writeByte addr v).readByte b = s.readByte b :=
  Memory.read_write_other v fun e => h (BitVec.eq_of_toNat_eq e)

theorem State.placeBytes_wf (s : State) (addr : Word) (l : List Byte) (h : Memory.wf s.mem = true) :
    Memory.wf (s.placeBytes addr l).mem = true := by
  induction l generalizing s addr with
  | nil => exact h
  | cons b rest ih => exact ih _ _ (State.writeByte_wf addr b h)

end Sys2Proof.Machine
end

