-- ==== Sys2Proof/Laws/State.lean ====
section
/-! SUPPORT. Laws/State.lean: what each update does to each field. -/

namespace Sys2Proof.Machine

/-! ## `setPc`, `setSp`, `retire` -/

@[simp] theorem State.setPc_pc (s : State) (v : Word) : (s.setPc v).pc = v := rfl

@[simp] theorem State.setPc_sp (s : State) (v : Word) : (s.setPc v).sp = s.sp := rfl

@[simp] theorem State.setPc_a (s : State) (v : Word) : (s.setPc v).a = s.a := rfl

@[simp] theorem State.setPc_x (s : State) (v : Word) : (s.setPc v).x = s.x := rfl

@[simp] theorem State.setPc_y (s : State) (v : Word) : (s.setPc v).y = s.y := rfl

@[simp] theorem State.setPc_flagC (s : State) (v : Word) : (s.setPc v).flagC = s.flagC := rfl

@[simp] theorem State.setPc_flagZ (s : State) (v : Word) : (s.setPc v).flagZ = s.flagZ := rfl

@[simp] theorem State.setPc_flagI (s : State) (v : Word) : (s.setPc v).flagI = s.flagI := rfl

@[simp] theorem State.setPc_flagD (s : State) (v : Word) : (s.setPc v).flagD = s.flagD := rfl

@[simp] theorem State.setPc_flagB (s : State) (v : Word) : (s.setPc v).flagB = s.flagB := rfl

@[simp] theorem State.setPc_flagV (s : State) (v : Word) : (s.setPc v).flagV = s.flagV := rfl

@[simp] theorem State.setPc_flagN (s : State) (v : Word) : (s.setPc v).flagN = s.flagN := rfl

@[simp] theorem State.setPc_mem (s : State) (v : Word) : (s.setPc v).mem = s.mem := rfl

@[simp] theorem State.setPc_status (s : State) (v : Word) : (s.setPc v).status = s.status := rfl

@[simp] theorem State.setPc_cycles (s : State) (v : Word) : (s.setPc v).cycles = s.cycles := rfl

@[simp] theorem State.setSp_pc (s : State) (v : Byte) : (s.setSp v).pc = s.pc := rfl

@[simp] theorem State.setSp_sp (s : State) (v : Byte) : (s.setSp v).sp = v := rfl

@[simp] theorem State.setSp_a (s : State) (v : Byte) : (s.setSp v).a = s.a := rfl

@[simp] theorem State.setSp_x (s : State) (v : Byte) : (s.setSp v).x = s.x := rfl

@[simp] theorem State.setSp_y (s : State) (v : Byte) : (s.setSp v).y = s.y := rfl

@[simp] theorem State.setSp_flagC (s : State) (v : Byte) : (s.setSp v).flagC = s.flagC := rfl

@[simp] theorem State.setSp_flagZ (s : State) (v : Byte) : (s.setSp v).flagZ = s.flagZ := rfl

@[simp] theorem State.setSp_flagI (s : State) (v : Byte) : (s.setSp v).flagI = s.flagI := rfl

@[simp] theorem State.setSp_flagD (s : State) (v : Byte) : (s.setSp v).flagD = s.flagD := rfl

@[simp] theorem State.setSp_flagB (s : State) (v : Byte) : (s.setSp v).flagB = s.flagB := rfl

@[simp] theorem State.setSp_flagV (s : State) (v : Byte) : (s.setSp v).flagV = s.flagV := rfl

@[simp] theorem State.setSp_flagN (s : State) (v : Byte) : (s.setSp v).flagN = s.flagN := rfl

@[simp] theorem State.setSp_mem (s : State) (v : Byte) : (s.setSp v).mem = s.mem := rfl

@[simp] theorem State.setSp_status (s : State) (v : Byte) : (s.setSp v).status = s.status := rfl

@[simp] theorem State.setSp_cycles (s : State) (v : Byte) : (s.setSp v).cycles = s.cycles := rfl

@[simp] theorem State.retire_pc (s : State) (n : Nat) : (s.retire n).pc = s.pc := rfl

@[simp] theorem State.retire_sp (s : State) (n : Nat) : (s.retire n).sp = s.sp := rfl

@[simp] theorem State.retire_a (s : State) (n : Nat) : (s.retire n).a = s.a := rfl

@[simp] theorem State.retire_x (s : State) (n : Nat) : (s.retire n).x = s.x := rfl

@[simp] theorem State.retire_y (s : State) (n : Nat) : (s.retire n).y = s.y := rfl

@[simp] theorem State.retire_flagC (s : State) (n : Nat) : (s.retire n).flagC = s.flagC := rfl

@[simp] theorem State.retire_flagZ (s : State) (n : Nat) : (s.retire n).flagZ = s.flagZ := rfl

@[simp] theorem State.retire_flagI (s : State) (n : Nat) : (s.retire n).flagI = s.flagI := rfl

@[simp] theorem State.retire_flagD (s : State) (n : Nat) : (s.retire n).flagD = s.flagD := rfl

@[simp] theorem State.retire_flagB (s : State) (n : Nat) : (s.retire n).flagB = s.flagB := rfl

@[simp] theorem State.retire_flagV (s : State) (n : Nat) : (s.retire n).flagV = s.flagV := rfl

@[simp] theorem State.retire_flagN (s : State) (n : Nat) : (s.retire n).flagN = s.flagN := rfl

@[simp] theorem State.retire_mem (s : State) (n : Nat) : (s.retire n).mem = s.mem := rfl

@[simp] theorem State.retire_status (s : State) (n : Nat) : (s.retire n).status = s.status := rfl

@[simp] theorem State.retire_cycles (s : State) (n : Nat) : (s.retire n).cycles = n := rfl

/-! ## `writeByte` -/

@[simp] theorem State.writeByte_pc (s : State) (addr : Word) (v : Byte) : (s.writeByte addr v).pc = s.pc := rfl

@[simp] theorem State.writeByte_sp (s : State) (addr : Word) (v : Byte) : (s.writeByte addr v).sp = s.sp := rfl

@[simp] theorem State.writeByte_a (s : State) (addr : Word) (v : Byte) : (s.writeByte addr v).a = s.a := rfl

@[simp] theorem State.writeByte_x (s : State) (addr : Word) (v : Byte) : (s.writeByte addr v).x = s.x := rfl

@[simp] theorem State.writeByte_y (s : State) (addr : Word) (v : Byte) : (s.writeByte addr v).y = s.y := rfl

@[simp] theorem State.writeByte_flagC (s : State) (addr : Word) (v : Byte) : (s.writeByte addr v).flagC = s.flagC := rfl

@[simp] theorem State.writeByte_flagZ (s : State) (addr : Word) (v : Byte) : (s.writeByte addr v).flagZ = s.flagZ := rfl

@[simp] theorem State.writeByte_flagI (s : State) (addr : Word) (v : Byte) : (s.writeByte addr v).flagI = s.flagI := rfl

@[simp] theorem State.writeByte_flagD (s : State) (addr : Word) (v : Byte) : (s.writeByte addr v).flagD = s.flagD := rfl

@[simp] theorem State.writeByte_flagB (s : State) (addr : Word) (v : Byte) : (s.writeByte addr v).flagB = s.flagB := rfl

@[simp] theorem State.writeByte_flagV (s : State) (addr : Word) (v : Byte) : (s.writeByte addr v).flagV = s.flagV := rfl

@[simp] theorem State.writeByte_flagN (s : State) (addr : Word) (v : Byte) : (s.writeByte addr v).flagN = s.flagN := rfl

@[simp] theorem State.writeByte_mem (s : State) (addr : Word) (v : Byte) : (s.writeByte addr v).mem = Memory.write s.mem addr.toNat v := rfl

@[simp] theorem State.writeByte_status (s : State) (addr : Word) (v : Byte) : (s.writeByte addr v).status = s.status := rfl

@[simp] theorem State.writeByte_cycles (s : State) (addr : Word) (v : Byte) : (s.writeByte addr v).cycles = s.cycles := rfl

/-! ## `setZN` -/

@[simp] theorem State.setZN_pc (s : State) (v : Byte) : (s.setZN v).pc = s.pc := rfl

@[simp] theorem State.setZN_sp (s : State) (v : Byte) : (s.setZN v).sp = s.sp := rfl

@[simp] theorem State.setZN_a (s : State) (v : Byte) : (s.setZN v).a = s.a := rfl

@[simp] theorem State.setZN_x (s : State) (v : Byte) : (s.setZN v).x = s.x := rfl

@[simp] theorem State.setZN_y (s : State) (v : Byte) : (s.setZN v).y = s.y := rfl

@[simp] theorem State.setZN_flagC (s : State) (v : Byte) : (s.setZN v).flagC = s.flagC := rfl

@[simp] theorem State.setZN_flagZ (s : State) (v : Byte) : (s.setZN v).flagZ = zeroOf v := rfl

@[simp] theorem State.setZN_flagI (s : State) (v : Byte) : (s.setZN v).flagI = s.flagI := rfl

@[simp] theorem State.setZN_flagD (s : State) (v : Byte) : (s.setZN v).flagD = s.flagD := rfl

@[simp] theorem State.setZN_flagB (s : State) (v : Byte) : (s.setZN v).flagB = s.flagB := rfl

@[simp] theorem State.setZN_flagV (s : State) (v : Byte) : (s.setZN v).flagV = s.flagV := rfl

@[simp] theorem State.setZN_flagN (s : State) (v : Byte) : (s.setZN v).flagN = negativeOf v := rfl

@[simp] theorem State.setZN_mem (s : State) (v : Byte) : (s.setZN v).mem = s.mem := rfl

@[simp] theorem State.setZN_status (s : State) (v : Byte) : (s.setZN v).status = s.status := rfl

@[simp] theorem State.setZN_cycles (s : State) (v : Byte) : (s.setZN v).cycles = s.cycles := rfl

/-! ## `enterFatal` -/

@[simp] theorem State.enterFatal_pc (s : State) (f : Fault) : (s.enterFatal f).pc = s.pc + 1 := rfl

@[simp] theorem State.enterFatal_sp (s : State) (f : Fault) : (s.enterFatal f).sp = s.sp := rfl

@[simp] theorem State.enterFatal_a (s : State) (f : Fault) : (s.enterFatal f).a = s.a := rfl

@[simp] theorem State.enterFatal_x (s : State) (f : Fault) : (s.enterFatal f).x = s.x := rfl

@[simp] theorem State.enterFatal_y (s : State) (f : Fault) : (s.enterFatal f).y = s.y := rfl

@[simp] theorem State.enterFatal_flagC (s : State) (f : Fault) : (s.enterFatal f).flagC = s.flagC := rfl

@[simp] theorem State.enterFatal_flagZ (s : State) (f : Fault) : (s.enterFatal f).flagZ = s.flagZ := rfl

@[simp] theorem State.enterFatal_flagI (s : State) (f : Fault) : (s.enterFatal f).flagI = s.flagI := rfl

@[simp] theorem State.enterFatal_flagD (s : State) (f : Fault) : (s.enterFatal f).flagD = s.flagD := rfl

@[simp] theorem State.enterFatal_flagB (s : State) (f : Fault) : (s.enterFatal f).flagB = s.flagB := rfl

@[simp] theorem State.enterFatal_flagV (s : State) (f : Fault) : (s.enterFatal f).flagV = s.flagV := rfl

@[simp] theorem State.enterFatal_flagN (s : State) (f : Fault) : (s.enterFatal f).flagN = s.flagN := rfl

@[simp] theorem State.enterFatal_mem (s : State) (f : Fault) : (s.enterFatal f).mem = s.mem := rfl

@[simp] theorem State.enterFatal_status (s : State) (f : Fault) : (s.enterFatal f).status = .faulted f := rfl

@[simp] theorem State.enterFatal_cycles (s : State) (f : Fault) : (s.enterFatal f).cycles = 0 := rfl

/-! ## `setReg` -/

@[simp] theorem State.setReg_pc (s : State) (r : Reg) (v : Byte) : (s.setReg r v).pc = s.pc := by cases r <;> rfl

@[simp] theorem State.setReg_sp (s : State) (r : Reg) (v : Byte) : (s.setReg r v).sp = s.sp := by cases r <;> rfl

@[simp] theorem State.setReg_a (s : State) (r : Reg) (v : Byte) : (s.setReg r v).a = if r = .a then v else s.a := by cases r <;> rfl

@[simp] theorem State.setReg_x (s : State) (r : Reg) (v : Byte) : (s.setReg r v).x = if r = .x then v else s.x := by cases r <;> rfl

@[simp] theorem State.setReg_y (s : State) (r : Reg) (v : Byte) : (s.setReg r v).y = if r = .y then v else s.y := by cases r <;> rfl

@[simp] theorem State.setReg_flagC (s : State) (r : Reg) (v : Byte) : (s.setReg r v).flagC = s.flagC := by cases r <;> rfl

@[simp] theorem State.setReg_flagZ (s : State) (r : Reg) (v : Byte) : (s.setReg r v).flagZ = s.flagZ := by cases r <;> rfl

@[simp] theorem State.setReg_flagI (s : State) (r : Reg) (v : Byte) : (s.setReg r v).flagI = s.flagI := by cases r <;> rfl

@[simp] theorem State.setReg_flagD (s : State) (r : Reg) (v : Byte) : (s.setReg r v).flagD = s.flagD := by cases r <;> rfl

@[simp] theorem State.setReg_flagB (s : State) (r : Reg) (v : Byte) : (s.setReg r v).flagB = s.flagB := by cases r <;> rfl

@[simp] theorem State.setReg_flagV (s : State) (r : Reg) (v : Byte) : (s.setReg r v).flagV = s.flagV := by cases r <;> rfl

@[simp] theorem State.setReg_flagN (s : State) (r : Reg) (v : Byte) : (s.setReg r v).flagN = s.flagN := by cases r <;> rfl

@[simp] theorem State.setReg_mem (s : State) (r : Reg) (v : Byte) : (s.setReg r v).mem = s.mem := by cases r <;> rfl

@[simp] theorem State.setReg_status (s : State) (r : Reg) (v : Byte) : (s.setReg r v).status = s.status := by cases r <;> rfl

@[simp] theorem State.setReg_cycles (s : State) (r : Reg) (v : Byte) : (s.setReg r v).cycles = s.cycles := by cases r <;> rfl

/-! ## `setFlag` -/

@[simp] theorem State.setFlag_pc (s : State) (f : Flag) (b : Bool) : (s.setFlag f b).pc = s.pc := by cases f <;> rfl

@[simp] theorem State.setFlag_sp (s : State) (f : Flag) (b : Bool) : (s.setFlag f b).sp = s.sp := by cases f <;> rfl

@[simp] theorem State.setFlag_a (s : State) (f : Flag) (b : Bool) : (s.setFlag f b).a = s.a := by cases f <;> rfl

@[simp] theorem State.setFlag_x (s : State) (f : Flag) (b : Bool) : (s.setFlag f b).x = s.x := by cases f <;> rfl

@[simp] theorem State.setFlag_y (s : State) (f : Flag) (b : Bool) : (s.setFlag f b).y = s.y := by cases f <;> rfl

@[simp] theorem State.setFlag_flagC (s : State) (f : Flag) (b : Bool) : (s.setFlag f b).flagC = if f = .c then b else s.flagC := by cases f <;> rfl

@[simp] theorem State.setFlag_flagZ (s : State) (f : Flag) (b : Bool) : (s.setFlag f b).flagZ = if f = .z then b else s.flagZ := by cases f <;> rfl

@[simp] theorem State.setFlag_flagI (s : State) (f : Flag) (b : Bool) : (s.setFlag f b).flagI = if f = .i then b else s.flagI := by cases f <;> rfl

@[simp] theorem State.setFlag_flagD (s : State) (f : Flag) (b : Bool) : (s.setFlag f b).flagD = if f = .d then b else s.flagD := by cases f <;> rfl

@[simp] theorem State.setFlag_flagB (s : State) (f : Flag) (b : Bool) : (s.setFlag f b).flagB = if f = .b then b else s.flagB := by cases f <;> rfl

@[simp] theorem State.setFlag_flagV (s : State) (f : Flag) (b : Bool) : (s.setFlag f b).flagV = if f = .v then b else s.flagV := by cases f <;> rfl

@[simp] theorem State.setFlag_flagN (s : State) (f : Flag) (b : Bool) : (s.setFlag f b).flagN = if f = .n then b else s.flagN := by cases f <;> rfl

@[simp] theorem State.setFlag_mem (s : State) (f : Flag) (b : Bool) : (s.setFlag f b).mem = s.mem := by cases f <;> rfl

@[simp] theorem State.setFlag_status (s : State) (f : Flag) (b : Bool) : (s.setFlag f b).status = s.status := by cases f <;> rfl

@[simp] theorem State.setFlag_cycles (s : State) (f : Flag) (b : Bool) : (s.setFlag f b).cycles = s.cycles := by cases f <;> rfl

/-! ## `loadReg` -/

@[simp] theorem State.loadReg_pc (s : State) (r : Reg) (v : Byte) : (s.loadReg r v).pc = s.pc := by cases r <;> rfl

@[simp] theorem State.loadReg_sp (s : State) (r : Reg) (v : Byte) : (s.loadReg r v).sp = s.sp := by cases r <;> rfl

@[simp] theorem State.loadReg_a (s : State) (r : Reg) (v : Byte) : (s.loadReg r v).a = if r = .a then v else s.a := by cases r <;> rfl

@[simp] theorem State.loadReg_x (s : State) (r : Reg) (v : Byte) : (s.loadReg r v).x = if r = .x then v else s.x := by cases r <;> rfl

@[simp] theorem State.loadReg_y (s : State) (r : Reg) (v : Byte) : (s.loadReg r v).y = if r = .y then v else s.y := by cases r <;> rfl

@[simp] theorem State.loadReg_flagC (s : State) (r : Reg) (v : Byte) : (s.loadReg r v).flagC = s.flagC := by cases r <;> rfl

@[simp] theorem State.loadReg_flagZ (s : State) (r : Reg) (v : Byte) : (s.loadReg r v).flagZ = zeroOf v := by cases r <;> rfl

@[simp] theorem State.loadReg_flagI (s : State) (r : Reg) (v : Byte) : (s.loadReg r v).flagI = s.flagI := by cases r <;> rfl

@[simp] theorem State.loadReg_flagD (s : State) (r : Reg) (v : Byte) : (s.loadReg r v).flagD = s.flagD := by cases r <;> rfl

@[simp] theorem State.loadReg_flagB (s : State) (r : Reg) (v : Byte) : (s.loadReg r v).flagB = s.flagB := by cases r <;> rfl

@[simp] theorem State.loadReg_flagV (s : State) (r : Reg) (v : Byte) : (s.loadReg r v).flagV = s.flagV := by cases r <;> rfl

@[simp] theorem State.loadReg_flagN (s : State) (r : Reg) (v : Byte) : (s.loadReg r v).flagN = negativeOf v := by cases r <;> rfl

@[simp] theorem State.loadReg_mem (s : State) (r : Reg) (v : Byte) : (s.loadReg r v).mem = s.mem := by cases r <;> rfl

@[simp] theorem State.loadReg_status (s : State) (r : Reg) (v : Byte) : (s.loadReg r v).status = s.status := by cases r <;> rfl

@[simp] theorem State.loadReg_cycles (s : State) (r : Reg) (v : Byte) : (s.loadReg r v).cycles = s.cycles := by cases r <;> rfl

/-! ## Reading back, and reads that an update does not disturb -/

@[simp] theorem State.getReg_setReg_same (s : State) (r : Reg) (v : Byte) :
    (s.setReg r v).getReg r = v := by cases r <;> rfl

theorem State.getReg_setReg_other (s : State) {r q : Reg} (v : Byte) (h : q ≠ r) :
    (s.setReg r v).getReg q = s.getReg q := by cases r <;> cases q <;> first | rfl | exact absurd rfl h

@[simp] theorem State.getFlag_setFlag_same (s : State) (f : Flag) (b : Bool) :
    (s.setFlag f b).getFlag f = b := by cases f <;> rfl

theorem State.getFlag_setFlag_other (s : State) {f g : Flag} (b : Bool) (h : g ≠ f) :
    (s.setFlag f b).getFlag g = s.getFlag g := by cases f <;> cases g <;> first | rfl | exact absurd rfl h

@[simp] theorem State.getReg_setPc (s : State) (v : Word) (r : Reg) : (s.setPc v).getReg r = s.getReg r := by
  cases r <;> rfl

@[simp] theorem State.readByte_setPc (s : State) (v addr : Word) :
    (s.setPc v).readByte addr = s.readByte addr := rfl

@[simp] theorem State.readByte_setSp (s : State) (v : Byte) (addr : Word) :
    (s.setSp v).readByte addr = s.readByte addr := rfl

@[simp] theorem State.readByte_retire (s : State) (n : Nat) (addr : Word) :
    (s.retire n).readByte addr = s.readByte addr := rfl

@[simp] theorem State.readByte_loadReg (s : State) (r : Reg) (v : Byte) (addr : Word) :
    (s.loadReg r v).readByte addr = s.readByte addr := by cases r <;> rfl

@[simp] theorem State.readWord_setPc (s : State) (v addr : Word) :
    (s.setPc v).readWord addr = s.readWord addr := rfl

@[simp] theorem State.setPc_setPc (s : State) (v w : Word) : (s.setPc v).setPc w = s.setPc w := rfl

end Sys2Proof.Machine
end

