-- ==== Sys2Proof/Laws/Ops.lean ====
section
/-! SUPPORT. Laws/Ops.lean: one statement of all each shared operation can do. -/

namespace Sys2Proof.Machine

/-! ## Words -/

theorem getLsbD_wordOf (lo hi : Byte) (i : Nat) :
    (wordOf lo hi).getLsbD i = if i < 8 then lo.getLsbD i else hi.getLsbD (i - 8) := by
  have h := BitVec.getLsbD_append (x := hi) (y := lo) (i := i)
  simpa [wordOf] using h

@[simp] theorem loByte_wordOf (lo hi : Byte) : loByte (wordOf lo hi) = lo := by
  apply BitVec.eq_of_getLsbD_eq
  intro i h
  simp [loByte, getLsbD_wordOf, h]

@[simp] theorem hiByte_wordOf (lo hi : Byte) : hiByte (wordOf lo hi) = hi := by
  apply BitVec.eq_of_getLsbD_eq
  intro i h
  simp [hiByte, getLsbD_wordOf, h]

@[simp] theorem wordOf_loByte_hiByte (w : Word) : wordOf (loByte w) (hiByte w) = w := by
  apply BitVec.eq_of_getLsbD_eq
  intro i h
  rw [getLsbD_wordOf]
  by_cases h8 : i < 8
  · simp [loByte, h8]
  · have e : 8 + (i - 8) = i := by omega
    simp [hiByte, h8, e, show i - 8 < 8 by omega]

theorem zext16_toNat (b : Byte) : (zext16 b).toNat = b.toNat := by
  simp [zext16, BitVec.toNat_setWidth]
  omega

/-- A zero-page address is below `0x0100` (R74). -/
theorem zext16_lt (b : Byte) : (zext16 b).toNat < 256 := by
  rw [zext16_toNat]
  exact b.isLt

theorem zext16_ne_last (b : Byte) : zext16 b ≠ Config.lastAddress := by
  intro h
  have h2 := congrArg BitVec.toNat h
  have := zext16_lt b
  simp [Config.lastAddress] at h2
  omega

/-! ## The word accessors -/

theorem State.readWord_last (s : State) :
    s.readWord Config.lastAddress = .error (.wordAccessOutOfRange Config.lastAddress) := if_pos rfl

theorem State.readWord_ok (s : State) {addr : Word} (h : addr ≠ Config.lastAddress) :
    s.readWord addr = .ok (wordOf (s.readByte addr) (s.readByte (addr + 1))) := if_neg h

/-- A pointer in the zero page is always readable (R80). -/
@[simp] theorem State.readWord_zext16 (s : State) (b : Byte) :
    s.readWord (zext16 b) = .ok (wordOf (s.readByte (zext16 b)) (s.readByte (zext16 b + 1))) :=
  s.readWord_ok (zext16_ne_last b)

theorem State.writeWord_last (s : State) (v : Word) :
    s.writeWord Config.lastAddress v = .error (.wordAccessOutOfRange Config.lastAddress) := if_pos rfl

theorem State.writeWord_ok (s : State) {addr : Word} (v : Word) (h : addr ≠ Config.lastAddress) :
    s.writeWord addr v = .ok ((s.writeByte addr (loByte v)).writeByte (addr + 1) (hiByte v)) := if_neg h

/-! ## Fetching -/

theorem add_one_eq_last_iff (p : Word) : p + 1 = Config.lastAddress ↔ p = 0xFFFE := by
  constructor
  · intro h
    have : p = Config.lastAddress - 1 := by rw [← h]; bv_omega
    simpa [Config.lastAddress] using this
  · intro h
    subst h
    rfl

@[simp] theorem State.consume_opD8 (s : State) : s.consume .opD8 = .ok (s.setPc (s.pc + 2)) := by
  show Except.ok (s.setPc (s.pc + 1 + 1)) = _
  rw [BitVec.add_assoc]
  rfl

/-- The operand word of a 3-byte instruction: fatal exactly when the opcode byte is at `0xFFFE` (R173). -/
theorem State.consume_opA16 (s : State) :
    s.consume .opA16 = if s.pc = 0xFFFE then .error (.wordAccessOutOfRange Config.lastAddress)
      else .ok (s.setPc (s.pc + 3)) := by
  by_cases h : s.pc = 0xFFFE
  · have e : s.pc + 1 = Config.lastAddress := (add_one_eq_last_iff _).mpr h
    simp only [State.consume, State.fetchByte, State.fetchWord, State.setPc_pc, e, State.readWord_last]
    rw [if_pos h]
  · have e : s.pc + 1 ≠ Config.lastAddress := fun c => h ((add_one_eq_last_iff _).mp c)
    simp only [State.consume, State.fetchByte, State.fetchWord, State.setPc_pc, State.readWord_setPc,
      State.readWord_ok s e, h, if_false, State.setPc_setPc]
    rw [BitVec.add_assoc]
    rfl

/-- What fetching an operand can do: `pc` moves past the instruction, or the word fetch is fatal. -/
theorem State.consume_cases (s : State) (f : Format) :
    s.consume f = .ok (s.setPc (s.pc + BitVec.ofNat 16 f.length)) ∨
    (f = .opA16 ∧ s.pc = 0xFFFE ∧ s.consume f = .error (.wordAccessOutOfRange Config.lastAddress)) := by
  cases f with
  | opD8 => exact .inl s.consume_opD8
  | opA16 =>
    rw [s.consume_opA16]
    by_cases h : s.pc = 0xFFFE
    · exact .inr ⟨rfl, h, if_pos h⟩
    · exact .inl (by rw [if_neg h]; rfl)

/-! ## The push -/

theorem pushAddress_ne_last (sp : Byte) : pushAddress sp ≠ Config.lastAddress := by
  intro h
  have h2 := congrArg BitVec.toNat h
  have := zext16_lt sp
  simp [pushAddress, Config.stackPageOffset, Config.lastAddress, BitVec.toNat_add] at h2
  omega

/-- A push never fails: `sp` down by two, the word at the two addresses above it (R141). -/
@[simp] theorem State.push16_eq (s : State) (w : Word) :
    s.push16 w = .ok (((s.setSp (s.sp - 2)).writeByte (pushAddress (s.sp - 2)) (loByte w)).writeByte
      (pushAddress (s.sp - 2) + 1) (hiByte w)) := by
  simp only [State.push16, State.setSp_sp]
  exact State.writeWord_ok _ w (pushAddress_ne_last _)

end Sys2Proof.Machine
end

