-- ==== Sys2Proof/Laws/Decode.lean ====
section
/-! SUPPORT. Laws/Decode.lean: the look-up, the rows of the table, and what the fetch can answer. -/

namespace Sys2Proof

/-- A row that is found is a row of the table, and has the byte. -/
theorem lookup_some {t : List OpcodeEntry} {op : Byte} {e : OpcodeEntry} (h : lookup t op = some e) :
    e ∈ t ∧ e.opcode = op :=
  ⟨List.mem_of_find?_eq_some h, by simpa using List.find?_some h⟩

/-- The Opcode Table satisfies the legality predicate, and no byte has two rows (R58). -/
theorem opcodeTable_wellFormed : tableWellFormed opcodeTable = true := by decide

/-- What a row's assembled instruction is: its triple is the row's, its opcode byte the row's, its operand
bytes the operand's. -/
structure Assembles (e : OpcodeEntry) (w : Word) (i : Instr) : Prop where
  assembled : assemble e.operation e.mode e.register w = some i
  opcode : i.opcode = e.opcode
  operation : i.operation = e.operation
  mode : i.mode = e.mode
  register : i.register = e.register
  operand : i.operandBytes =
    match e.mode.format with
    | .opD8 => [loByte w]
    | .opA16 => [loByte w, hiByte w]

/-- Every row of the table is an instruction. -/
theorem row_assembles {e : OpcodeEntry} (h : e ∈ opcodeTable) (w : Word) : ∃ i, Assembles e w i := by
  simp only [opcodeTable, loadRows, storeRows, jsrRows, List.mem_append, List.mem_cons, List.not_mem_nil,
    or_false] at h
  rcases h with (h | h) | h
  · rcases h with h | h | h | h | h | h | h | h | h | h | h | h | h | h | h | h | h <;> subst h <;>
      exact ⟨_, rfl, rfl, rfl, rfl, rfl, rfl⟩
  · rcases h with h | h | h | h | h | h | h | h | h | h | h | h <;> subst h <;>
      exact ⟨_, rfl, rfl, rfl, rfl, rfl, rfl⟩
  · subst h
    exact ⟨_, rfl, rfl, rfl, rfl, rfl, rfl⟩

theorem row_wellFormed {e : OpcodeEntry} (h : e ∈ opcodeTable) : e.wellFormed = true := by
  have ht := opcodeTable_wellFormed
  simp only [tableWellFormed, Bool.and_eq_true, List.all_eq_true] at ht
  exact ht.1 e h

/-- What the decoder answers on a known byte: the row's instruction. -/
theorem decodeWindow_known {b0 : Byte} {e : OpcodeEntry} (b1 b2 : Byte) (h : lookup opcodeTable b0 = some e) :
    ∃ i, Assembles e (wordOf b1 b2) i ∧ decodeWindow b0 b1 b2 = .ok i := by
  obtain ⟨i, hi⟩ := row_assembles (lookup_some h).1 (wordOf b1 b2)
  exact ⟨i, hi, by simp only [decodeWindow, h, row_wellFormed (lookup_some h).1, if_true, hi.assembled]⟩

/-- What the decoder answers on any other byte. -/
theorem decodeWindow_unknown {b0 : Byte} (b1 b2 : Byte) (h : lookup opcodeTable b0 = none) :
    decodeWindow b0 b1 b2 = .error (.unknownOpcode b0) := by
  simp only [decodeWindow, h]

namespace Machine

/-- All a fetch can answer: the instruction of the byte's row, or the byte is unknown. -/
theorem fetch_cases (s : State) :
    (∃ e i, lookup opcodeTable (s.readByte s.pc) = some e ∧
      Assembles e (wordOf (s.readByte (s.pc + 1)) (s.readByte (s.pc + 2))) i ∧ fetch s = .ok i) ∨
    (lookup opcodeTable (s.readByte s.pc) = none ∧
      fetch s = .error (.unknownOpcode (s.readByte s.pc) s.pc)) := by
  cases h : lookup opcodeTable (s.readByte s.pc) with
  | none => exact .inr ⟨rfl, by simp only [fetch, decodeWindow_unknown _ _ h]⟩
  | some e =>
    obtain ⟨i, hi, hd⟩ := decodeWindow_known (s.readByte (s.pc + 1)) (s.readByte (s.pc + 2)) h
    exact .inl ⟨e, i, rfl, hi, by simp only [fetch, hd]⟩

end Machine

end Sys2Proof
end

