-- ==== Sys2Proof/Laws/Meanings.lean ====
section
/-! SUPPORT. Laws/Meanings.lean: what the resolver and the meanings can do. -/

namespace Sys2Proof.Machine

/-- What the Resolver answers; it never fails (R74 to R81). -/
def resolved (form : AddrForm) (s : State) : Resolved :=
  match form with
  | .zeroPage d => ⟨zext16 d, false⟩
  | .zeroPageX d => ⟨zext16 (d + s.x), false⟩
  | .zeroPageY d => ⟨zext16 (d + s.y), false⟩
  | .absolute w => ⟨w, false⟩
  | .absoluteX w => indexed w s.x
  | .absoluteY w => indexed w s.y
  | .indirectX d => ⟨wordOf (s.readByte (zext16 (d + s.x))) (s.readByte (zext16 (d + s.x) + 1)), false⟩
  | .indirectY d => indexed (wordOf (s.readByte (zext16 d)) (s.readByte (zext16 d + 1))) s.y

theorem resolve_eq (form : AddrForm) (s : State) : resolve form s = .ok (resolved form s) := by
  cases form <;> simp [resolve, resolved]

/-- The Resolver does not look at `pc` once the operand is fetched. -/
@[simp] theorem resolved_setPc (form : AddrForm) (s : State) (v : Word) :
    resolved form (s.setPc v) = resolved form s := by cases form <;> rfl

/-! ## Loads -/

@[simp] theorem loadImmediate_eq (r : Reg) (d : Byte) (s : State) :
    loadImmediate r d s = .next (((s.setPc (s.pc + 2)).loadReg r d).retire 2) := by
  simp only [loadImmediate, State.consume_opD8]
  rfl

/-- All a load from memory can do: it completes with the resolved byte, or its operand fetch is fatal. -/
theorem loadFrom_eq (r : Reg) (form : AddrForm) (s : State) :
    loadFrom r form s =
      if form.mode.format = .opA16 ∧ s.pc = 0xFFFE then
        .fault (.wordAccessOutOfRange Config.lastAddress)
      else
        .next (((s.setPc (s.pc + BitVec.ofNat 16 form.mode.format.length)).loadReg r
          (s.readByte (resolved form s).addr)).retire (loadCycles form (resolved form s).crossed)) := by
  unfold loadFrom
  rcases s.consume_cases form.mode.format with h | ⟨hf, hp, h⟩
  · have hn : ¬ (form.mode.format = .opA16 ∧ s.pc = 0xFFFE) := by
      rintro ⟨hf, hp⟩
      rw [hf, s.consume_opA16, if_pos hp] at h
      simp at h
    simp only [h, resolve_eq, if_neg hn, State.readByte_setPc, resolved_setPc]
  · simp only [h, if_pos (And.intro hf hp)]

/-! ## Stores -/

/-- All a store can do: it writes the register's byte at the resolved address, or its operand fetch is
fatal. -/
theorem storeTo_eq (r : Reg) (form : AddrForm) (s : State) :
    storeTo r form s =
      if form.mode.format = .opA16 ∧ s.pc = 0xFFFE then
        .fault (.wordAccessOutOfRange Config.lastAddress)
      else
        .next (((s.setPc (s.pc + BitVec.ofNat 16 form.mode.format.length)).writeByte
          (resolved form s).addr (s.getReg r)).retire (storeCycles form)) := by
  unfold storeTo
  rcases s.consume_cases form.mode.format with h | ⟨hf, hp, h⟩
  · have hn : ¬ (form.mode.format = .opA16 ∧ s.pc = 0xFFFE) := by
      rintro ⟨hf, hp⟩
      rw [hf, s.consume_opA16, if_pos hp] at h
      simp at h
    simp only [h, resolve_eq, if_neg hn, State.getReg_setPc, resolved_setPc]
  · simp only [h, if_pos (And.intro hf hp)]

/-! ## JSR -/

/-- The state a push leaves (R141). -/
def State.pushed (s : State) (w : Word) : State :=
  ((s.setSp (s.sp - 2)).writeByte (pushAddress (s.sp - 2)) (loByte w)).writeByte
    (pushAddress (s.sp - 2) + 1) (hiByte w)

/-- All `JSR` can do (R140). -/
theorem execJsr_eq (w : Word) (s : State) :
    execJsr w s =
      if s.pc = 0xFFFE then .fault (.wordAccessOutOfRange Config.lastAddress)
      else .next (((s.pushed (s.pc + 2)).setPc w).retire 6) := by
  unfold execJsr
  rw [s.consume_opA16]
  by_cases h : s.pc = 0xFFFE
  · simp only [h, if_true]
  · have e : s.pc + 3 - 1 = s.pc + 2 := by bv_omega
    simp only [h, if_false, State.push16_eq, State.setPc_pc, e]
    rfl

end Sys2Proof.Machine
end

