-- ==== Sys2Proof/Laws/Exec.lean ====
section
/-! SUPPORT. Laws/Exec.lean: all that running an instruction can do, said once. -/

namespace Sys2Proof.Machine

theorem loadCycles_bounds (form : AddrForm) (c : Bool) : 2 ≤ loadCycles form c ∧ loadCycles form c ≤ 6 := by
  cases form <;> cases c <;> simp [loadCycles]

theorem storeCycles_bounds (form : AddrForm) : 2 ≤ storeCycles form ∧ storeCycles form ≤ 6 := by
  cases form <;> simp [storeCycles]

/-- Where an instruction's own effect is a load: the register, the loaded byte and the cost (R90). -/
structure LoadsInto (i : Instr) (s t : State) (r : Reg) (v : Byte) (n : Nat) : Prop where
  operation : i.operation = .load
  register : i.register = some r
  cost : 2 ≤ n ∧ n ≤ 6
  state : t = ((s.setPc (s.pc + BitVec.ofNat 16 i.length)).loadReg r v).retire n

/-- Where an instruction's own effect is a store: the register, the address and the cost (R120). -/
structure StoresTo (i : Instr) (s t : State) (r : Reg) (addr : Word) (n : Nat) : Prop where
  operation : i.operation = .store
  register : i.register = some r
  cost : 2 ≤ n ∧ n ≤ 6
  state : t = ((s.setPc (s.pc + BitVec.ofNat 16 i.length)).writeByte addr (s.getReg r)).retire n

/-- All an instruction can do, as one proposition about its outcome: it loads, it stores, it is `JSR`, or its
operand word is out of range. -/
def ExecOutcome (i : Instr) (s : State) (o : Result) : Prop :=
  (i.mode.format = .opA16 ∧ s.pc = 0xFFFE ∧ o = .fault (.wordAccessOutOfRange Config.lastAddress)) ∨
  (¬ (i.mode.format = .opA16 ∧ s.pc = 0xFFFE) ∧ ∃ t, o = .next t ∧
    ((∃ r v n, LoadsInto i s t r v n) ∨ (∃ r addr n, StoresTo i s t r addr n) ∨
      (∃ w, i = .jsr w ∧ t = ((s.pushed (s.pc + 2)).setPc w).retire 6)))

theorem loadImmediate_outcome (i : Instr) (r : Reg) (d : Byte) (s : State) (ho : i.operation = .load)
    (hr : i.register = some r) (hm : i.mode = .immediate) : ExecOutcome i s (loadImmediate r d s) := by
  refine .inr ⟨by simp [hm, Mode.format], _, loadImmediate_eq r d s, .inl ⟨r, d, 2, ho, hr, by decide, ?_⟩⟩
  simp [Instr.length, hm, Mode.format, Format.length]

theorem loadFrom_outcome (i : Instr) (r : Reg) (form : AddrForm) (s : State) (ho : i.operation = .load)
    (hr : i.register = some r) (hm : i.mode = form.mode) : ExecOutcome i s (loadFrom r form s) := by
  rw [loadFrom_eq, ← hm]
  by_cases h : i.mode.format = .opA16 ∧ s.pc = 0xFFFE
  · rw [if_pos h]
    exact .inl ⟨h.1, h.2, rfl⟩
  · rw [if_neg h]
    exact .inr ⟨h, _, rfl, .inl ⟨r, _, _, ho, hr, loadCycles_bounds _ _, rfl⟩⟩

theorem storeTo_outcome (i : Instr) (r : Reg) (form : AddrForm) (s : State) (ho : i.operation = .store)
    (hr : i.register = some r) (hm : i.mode = form.mode) : ExecOutcome i s (storeTo r form s) := by
  rw [storeTo_eq, ← hm]
  by_cases h : i.mode.format = .opA16 ∧ s.pc = 0xFFFE
  · rw [if_pos h]
    exact .inl ⟨h.1, h.2, rfl⟩
  · rw [if_neg h]
    exact .inr ⟨h, _, rfl, .inr (.inl ⟨r, _, _, ho, hr, storeCycles_bounds _, rfl⟩)⟩

theorem execJsr_outcome (w : Word) (s : State) : ExecOutcome (.jsr w) s (execJsr w s) := by
  rw [execJsr_eq]
  by_cases h : s.pc = 0xFFFE
  · rw [if_pos h]
    exact .inl ⟨rfl, h, rfl⟩
  · rw [if_neg h]
    exact .inr ⟨fun c => h c.2, _, rfl, .inr (.inr ⟨w, rfl, rfl⟩)⟩

/-- Which shared operation an instruction is, with its mode: the one case split over the instruction set. -/
def ExecShape (i : Instr) : Prop :=
  (∃ r d, i.operation = .load ∧ i.register = some r ∧ i.mode = .immediate ∧
    ∀ s, exec i s = loadImmediate r d s) ∨
  (∃ r form, i.operation = .load ∧ i.register = some r ∧ i.mode = form.mode ∧
    ∀ s, exec i s = loadFrom r form s) ∨
  (∃ r form, i.operation = .store ∧ i.register = some r ∧ i.mode = form.mode ∧
    ∀ s, exec i s = storeTo r form s) ∨
  (∃ w, i = .jsr w)

theorem exec_shape (i : Instr) : ExecShape i := by
  cases i with
  | ldaImm d => exact .inl ⟨.a, d, rfl, rfl, rfl, fun _ => rfl⟩
  | ldaZp d => exact .inr (.inl ⟨.a, .zeroPage d, rfl, rfl, rfl, fun _ => rfl⟩)
  | ldaZpX d => exact .inr (.inl ⟨.a, .zeroPageX d, rfl, rfl, rfl, fun _ => rfl⟩)
  | ldaAbs w => exact .inr (.inl ⟨.a, .absolute w, rfl, rfl, rfl, fun _ => rfl⟩)
  | ldaAbsX w => exact .inr (.inl ⟨.a, .absoluteX w, rfl, rfl, rfl, fun _ => rfl⟩)
  | ldaIndX d => exact .inr (.inl ⟨.a, .indirectX d, rfl, rfl, rfl, fun _ => rfl⟩)
  | ldaIndY d => exact .inr (.inl ⟨.a, .indirectY d, rfl, rfl, rfl, fun _ => rfl⟩)
  | ldxImm d => exact .inl ⟨.x, d, rfl, rfl, rfl, fun _ => rfl⟩
  | ldxZp d => exact .inr (.inl ⟨.x, .zeroPage d, rfl, rfl, rfl, fun _ => rfl⟩)
  | ldxZpY d => exact .inr (.inl ⟨.x, .zeroPageY d, rfl, rfl, rfl, fun _ => rfl⟩)
  | ldxAbs w => exact .inr (.inl ⟨.x, .absolute w, rfl, rfl, rfl, fun _ => rfl⟩)
  | ldxAbsY w => exact .inr (.inl ⟨.x, .absoluteY w, rfl, rfl, rfl, fun _ => rfl⟩)
  | ldyImm d => exact .inl ⟨.y, d, rfl, rfl, rfl, fun _ => rfl⟩
  | ldyZp d => exact .inr (.inl ⟨.y, .zeroPage d, rfl, rfl, rfl, fun _ => rfl⟩)
  | ldyZpX d => exact .inr (.inl ⟨.y, .zeroPageX d, rfl, rfl, rfl, fun _ => rfl⟩)
  | ldyAbs w => exact .inr (.inl ⟨.y, .absolute w, rfl, rfl, rfl, fun _ => rfl⟩)
  | ldyAbsX w => exact .inr (.inl ⟨.y, .absoluteX w, rfl, rfl, rfl, fun _ => rfl⟩)
  | staZp d => exact .inr (.inr (.inl ⟨.a, .zeroPage d, rfl, rfl, rfl, fun _ => rfl⟩))
  | staZpX d => exact .inr (.inr (.inl ⟨.a, .zeroPageX d, rfl, rfl, rfl, fun _ => rfl⟩))
  | staAbs w => exact .inr (.inr (.inl ⟨.a, .absolute w, rfl, rfl, rfl, fun _ => rfl⟩))
  | staAbsX w => exact .inr (.inr (.inl ⟨.a, .absoluteX w, rfl, rfl, rfl, fun _ => rfl⟩))
  | staIndX d => exact .inr (.inr (.inl ⟨.a, .indirectX d, rfl, rfl, rfl, fun _ => rfl⟩))
  | staIndY d => exact .inr (.inr (.inl ⟨.a, .indirectY d, rfl, rfl, rfl, fun _ => rfl⟩))
  | stxZp d => exact .inr (.inr (.inl ⟨.x, .zeroPage d, rfl, rfl, rfl, fun _ => rfl⟩))
  | stxZpY d => exact .inr (.inr (.inl ⟨.x, .zeroPageY d, rfl, rfl, rfl, fun _ => rfl⟩))
  | stxAbs w => exact .inr (.inr (.inl ⟨.x, .absolute w, rfl, rfl, rfl, fun _ => rfl⟩))
  | styZp d => exact .inr (.inr (.inl ⟨.y, .zeroPage d, rfl, rfl, rfl, fun _ => rfl⟩))
  | styZpX d => exact .inr (.inr (.inl ⟨.y, .zeroPageX d, rfl, rfl, rfl, fun _ => rfl⟩))
  | styAbs w => exact .inr (.inr (.inl ⟨.y, .absolute w, rfl, rfl, rfl, fun _ => rfl⟩))
  | jsr w => exact .inr (.inr (.inr ⟨w, rfl⟩))

/-- All any instruction can do (R14, R90, R120, R140). -/
theorem exec_outcome (i : Instr) (s : State) : ExecOutcome i s (exec i s) := by
  rcases exec_shape i with ⟨r, d, ho, hr, hm, hx⟩ | ⟨r, form, ho, hr, hm, hx⟩ | ⟨r, form, ho, hr, hm, hx⟩ | ⟨w, rfl⟩
  · rw [hx]
    exact loadImmediate_outcome i r d s ho hr hm
  · rw [hx]
    exact loadFrom_outcome i r form s ho hr hm
  · rw [hx]
    exact storeTo_outcome i r form s ho hr hm
  · exact execJsr_outcome w s

end Sys2Proof.Machine
end

