-- ==== Sys2Proof/Laws/PerInstr.lean ====
section
/-! SUPPORT. Laws/PerInstr.lean: facts about every instruction as a piece of text, one lemma per constructor. -/

namespace Sys2Proof.Laws.TableRow

/-- The instruction is well formed, and its opcode byte and its triple are a row of the Opcode Table (R55,
R58); the table was written from R55 and the opcode bytes from the instructions' own rules. -/
def Statement (i : Instr) : Prop :=
  i.wellFormed = true ∧
  (⟨i.opcode, i.operation, i.mode, i.register⟩ : OpcodeEntry) ∈ opcodeTable ∧
  (encode i).length = i.length

/-- A row found by the look-up is a row of the table. -/
theorem row_mem (i : Instr)
    (h : opcodeTable.contains ⟨i.opcode, i.operation, i.mode, i.register⟩ = true) :
    (⟨i.opcode, i.operation, i.mode, i.register⟩ : OpcodeEntry) ∈ opcodeTable :=
  List.contains_iff_mem.mp h

theorem ldaImm (d : Byte) : Statement (.ldaImm d) := ⟨rfl, row_mem (.ldaImm d) rfl, rfl⟩

theorem ldaZp (d : Byte) : Statement (.ldaZp d) := ⟨rfl, row_mem (.ldaZp d) rfl, rfl⟩

theorem ldaZpX (d : Byte) : Statement (.ldaZpX d) := ⟨rfl, row_mem (.ldaZpX d) rfl, rfl⟩

theorem ldaAbs (w : Word) : Statement (.ldaAbs w) := ⟨rfl, row_mem (.ldaAbs w) rfl, rfl⟩

theorem ldaAbsX (w : Word) : Statement (.ldaAbsX w) := ⟨rfl, row_mem (.ldaAbsX w) rfl, rfl⟩

theorem ldaIndX (d : Byte) : Statement (.ldaIndX d) := ⟨rfl, row_mem (.ldaIndX d) rfl, rfl⟩

theorem ldaIndY (d : Byte) : Statement (.ldaIndY d) := ⟨rfl, row_mem (.ldaIndY d) rfl, rfl⟩

theorem ldxImm (d : Byte) : Statement (.ldxImm d) := ⟨rfl, row_mem (.ldxImm d) rfl, rfl⟩

theorem ldxZp (d : Byte) : Statement (.ldxZp d) := ⟨rfl, row_mem (.ldxZp d) rfl, rfl⟩

theorem ldxZpY (d : Byte) : Statement (.ldxZpY d) := ⟨rfl, row_mem (.ldxZpY d) rfl, rfl⟩

theorem ldxAbs (w : Word) : Statement (.ldxAbs w) := ⟨rfl, row_mem (.ldxAbs w) rfl, rfl⟩

theorem ldxAbsY (w : Word) : Statement (.ldxAbsY w) := ⟨rfl, row_mem (.ldxAbsY w) rfl, rfl⟩

theorem ldyImm (d : Byte) : Statement (.ldyImm d) := ⟨rfl, row_mem (.ldyImm d) rfl, rfl⟩

theorem ldyZp (d : Byte) : Statement (.ldyZp d) := ⟨rfl, row_mem (.ldyZp d) rfl, rfl⟩

theorem ldyZpX (d : Byte) : Statement (.ldyZpX d) := ⟨rfl, row_mem (.ldyZpX d) rfl, rfl⟩

theorem ldyAbs (w : Word) : Statement (.ldyAbs w) := ⟨rfl, row_mem (.ldyAbs w) rfl, rfl⟩

theorem ldyAbsX (w : Word) : Statement (.ldyAbsX w) := ⟨rfl, row_mem (.ldyAbsX w) rfl, rfl⟩

theorem staZp (d : Byte) : Statement (.staZp d) := ⟨rfl, row_mem (.staZp d) rfl, rfl⟩

theorem staZpX (d : Byte) : Statement (.staZpX d) := ⟨rfl, row_mem (.staZpX d) rfl, rfl⟩

theorem staAbs (w : Word) : Statement (.staAbs w) := ⟨rfl, row_mem (.staAbs w) rfl, rfl⟩

theorem staAbsX (w : Word) : Statement (.staAbsX w) := ⟨rfl, row_mem (.staAbsX w) rfl, rfl⟩

theorem staIndX (d : Byte) : Statement (.staIndX d) := ⟨rfl, row_mem (.staIndX d) rfl, rfl⟩

theorem staIndY (d : Byte) : Statement (.staIndY d) := ⟨rfl, row_mem (.staIndY d) rfl, rfl⟩

theorem stxZp (d : Byte) : Statement (.stxZp d) := ⟨rfl, row_mem (.stxZp d) rfl, rfl⟩

theorem stxZpY (d : Byte) : Statement (.stxZpY d) := ⟨rfl, row_mem (.stxZpY d) rfl, rfl⟩

theorem stxAbs (w : Word) : Statement (.stxAbs w) := ⟨rfl, row_mem (.stxAbs w) rfl, rfl⟩

theorem styZp (d : Byte) : Statement (.styZp d) := ⟨rfl, row_mem (.styZp d) rfl, rfl⟩

theorem styZpX (d : Byte) : Statement (.styZpX d) := ⟨rfl, row_mem (.styZpX d) rfl, rfl⟩

theorem styAbs (w : Word) : Statement (.styAbs w) := ⟨rfl, row_mem (.styAbs w) rfl, rfl⟩

theorem jsr (w : Word) : Statement (.jsr w) := ⟨rfl, row_mem (.jsr w) rfl, rfl⟩

end Sys2Proof.Laws.TableRow
end

