-- ==== Sys2Proof/Laws/Step.lean ====
section
/-! SUPPORT. Laws/Step.lean: what one step is, in each status. -/

namespace Sys2Proof.Machine

theorem step_uninit {s : State} (h : s.status = .uninit) : step s = .refused .beforeReset := by
  simp only [step, h]

theorem step_faulted {s : State} {f : Fault} (h : s.status = .faulted f) : step s = .refused .afterFatal := by
  simp only [step, h]

/-- A step from `READY`: the fetched instruction runs, or the byte at `pc` is unknown (R150). -/
theorem step_ready_cases {s : State} (h : s.status = .ready) :
    (∃ e i, lookup opcodeTable (s.readByte s.pc) = some e ∧
      Assembles e (wordOf (s.readByte (s.pc + 1)) (s.readByte (s.pc + 2))) i ∧ step s = exec i s) ∨
    (lookup opcodeTable (s.readByte s.pc) = none ∧
      step s = .fault (.unknownOpcode (s.readByte s.pc) s.pc)) := by
  rcases fetch_cases s with ⟨e, i, he, hi, hf⟩ | ⟨he, hf⟩
  · exact .inl ⟨e, i, he, hi, by simp only [step, h, hf]⟩
  · exact .inr ⟨he, by simp only [step, h, hf]⟩

/-- A step that completes ran one instruction from `READY`. -/
theorem step_next {s t : State} (h : step s = .next t) :
    s.status = .ready ∧ ∃ e i, lookup opcodeTable (s.readByte s.pc) = some e ∧
      Assembles e (wordOf (s.readByte (s.pc + 1)) (s.readByte (s.pc + 2))) i ∧ exec i s = .next t := by
  cases hs : s.status with
  | uninit => simp [step_uninit hs] at h
  | faulted f => simp [step_faulted hs] at h
  | ready =>
    rcases step_ready_cases hs with ⟨e, i, he, hi, hx⟩ | ⟨_, hx⟩
    · exact ⟨rfl, e, i, he, hi, hx ▸ h⟩
    · simp [hx] at h

end Sys2Proof.Machine
end

