-- ==== Sys2Proof/Tests/Slice0.lean ====
section
/-! SUPPORT. Tests/Slice0.lean: tests of the model on fixed values. The expected values are the spec's: the vectors of
spec/95_test_vectors.md (named in the comments), the encodings of the instructions' own rules, the tables.
The last section shows, for each statement with hypotheses, that something meets them. -/

namespace Sys2Proof.Tests

open Sys2Proof.Machine

/-! ## Helpers -/

/-- After reset, bytes placed at `pc`, and `pc` set there (R202). -/
def prog (pc : Word) (code : List Byte) : State := (State.reset.placeBytes pc code).setPc pc

/-- Bytes of memory set one by one, as the vectors list them. -/
def put (s : State) (cells : List (Word × Byte)) : State :=
  cells.foldl (fun t c => t.writeByte c.1 c.2) s

/-- The state after a step that completes. -/
def stepped (s : State) : Option State :=
  match step s with
  | .next t => some t
  | .fault _ => none
  | .refused _ => none

/-- The fatal condition of a step. -/
def fatal (s : State) : Option Fault :=
  match step s with
  | .next _ => none
  | .fault f => some f
  | .refused _ => none

/-- The refusal of a step. -/
def refusal (s : State) : Option Refusal :=
  match step s with
  | .next _ => none
  | .fault _ => none
  | .refused r => some r

/-- What a load is tested on: the target register, `Z`, `N`, `pc` and the cost after one step. -/
def loaded (r : Reg) (s : State) : Option (Byte × Bool × Bool × Word × Nat) :=
  (stepped s).map fun t => (t.getReg r, t.flagZ, t.flagN, t.pc, t.cycles)

/-- What a store is tested on: the byte at an address, `Z`, `N`, `pc` and the cost after one step. -/
def stored (addr : Word) (s : State) : Option (Byte × Bool × Bool × Word × Nat) :=
  (stepped s).map fun t => (t.readByte addr, t.flagZ, t.flagN, t.pc, t.cycles)

/-- What `JSR` is tested on: `sp`, `pc`, the two bytes from an address on, and the cost after one step. -/
def called (addr : Word) (s : State) : Option (Byte × Word × Byte × Byte × Nat) :=
  (stepped s).map fun t => (t.sp, t.pc, t.readByte addr, t.readByte (addr + 1), t.cycles)

/-- The result of a run that ends normally: the total, and `pc` after it. -/
def ran (n : Nat) (s : State) : Option (Nat × Word) :=
  match execute n s with
  | .finished total t => some (total, t.pc)
  | .fatal _ _ => none
  | .refused _ _ => none

/-- The instruction a whole list of bytes decodes to. -/
def whole (bytes : List Byte) : Option Instr :=
  match decode bytes with
  | .ok (i, []) => some i
  | .ok (_, _ :: _) => none
  | .error _ => none

/-! ## WellFormed: each check refuses an ill-formed term (R58, R83) -/

/-- S9. -/
theorem test_wf_refuses_ldx_zeroPageX :
    (⟨0x00, .load, .zeroPageX, some .x⟩ : OpcodeEntry).wellFormed = false := by decide

theorem test_wf_refuses_lda_zeroPageY :
    (⟨0x00, .load, .zeroPageY, some .a⟩ : OpcodeEntry).wellFormed = false := by decide

theorem test_wf_refuses_ldx_absoluteX :
    (⟨0x00, .load, .absoluteX, some .x⟩ : OpcodeEntry).wellFormed = false := by decide

/-- R57. -/
theorem test_wf_refuses_lda_absoluteY :
    (⟨0xB9, .load, .absoluteY, some .a⟩ : OpcodeEntry).wellFormed = false := by decide

/-- R57. -/
theorem test_wf_refuses_sta_absoluteY :
    (⟨0x99, .store, .absoluteY, some .a⟩ : OpcodeEntry).wellFormed = false := by decide

theorem test_wf_refuses_ldx_indirectX :
    (⟨0x00, .load, .indirectX, some .x⟩ : OpcodeEntry).wellFormed = false := by decide

theorem test_wf_refuses_sty_indirectY :
    (⟨0x00, .store, .indirectY, some .y⟩ : OpcodeEntry).wellFormed = false := by decide

theorem test_wf_refuses_store_immediate :
    (⟨0x00, .store, .immediate, some .a⟩ : OpcodeEntry).wellFormed = false := by decide

theorem test_wf_refuses_load_without_register :
    (⟨0x00, .load, .absolute, none⟩ : OpcodeEntry).wellFormed = false := by decide

theorem test_wf_refuses_store_without_register :
    (⟨0x00, .store, .absolute, none⟩ : OpcodeEntry).wellFormed = false := by decide

theorem test_wf_refuses_jsr_with_register :
    (⟨0x20, .jsr, .absolute, some .a⟩ : OpcodeEntry).wellFormed = false := by decide

theorem test_wf_refuses_jsr_zeroPage :
    (⟨0x20, .jsr, .zeroPage, none⟩ : OpcodeEntry).wellFormed = false := by decide

theorem test_wf_refuses_double_byte :
    tableWellFormed [⟨0xA5, .load, .zeroPage, some .a⟩, ⟨0xA5, .load, .zeroPage, some .x⟩] = false := by decide

theorem test_wf_refuses_illegal_row : tableWellFormed [⟨0xA5, .load, .zeroPageX, some .x⟩] = false := by decide

/-- R55, R58. -/
theorem test_wf_table : tableWellFormed opcodeTable = true ∧ opcodeTable.length = 30 := by decide

/-! ## Decoding: each word is written out from the "Encoding" entry of the instruction's own rule -/

/-- `A9 nn` (R92). -/
theorem test_decode_ldaImm : whole [0b10101001, 0xC5] = some (.ldaImm 0xC5) := by decide

/-- `A5 nn` (R93). -/
theorem test_decode_ldaZp : whole [0b10100101, 0xC5] = some (.ldaZp 0xC5) := by decide

/-- `B5 nn` (R94). -/
theorem test_decode_ldaZpX : whole [0b10110101, 0xC5] = some (.ldaZpX 0xC5) := by decide

/-- `AD ll hh` (R95). -/
theorem test_decode_ldaAbs : whole [0b10101101, 0x34, 0x92] = some (.ldaAbs 0x9234) := by decide

/-- `BD ll hh` (R96). -/
theorem test_decode_ldaAbsX : whole [0b10111101, 0x34, 0x92] = some (.ldaAbsX 0x9234) := by decide

/-- `A1 nn` (R97). -/
theorem test_decode_ldaIndX : whole [0b10100001, 0xC5] = some (.ldaIndX 0xC5) := by decide

/-- `B1 nn` (R98). -/
theorem test_decode_ldaIndY : whole [0b10110001, 0xC5] = some (.ldaIndY 0xC5) := by decide

/-- `A2 nn` (R99). -/
theorem test_decode_ldxImm : whole [0b10100010, 0xC5] = some (.ldxImm 0xC5) := by decide

/-- `A6 nn` (R100). -/
theorem test_decode_ldxZp : whole [0b10100110, 0xC5] = some (.ldxZp 0xC5) := by decide

/-- `B6 nn` (R101). -/
theorem test_decode_ldxZpY : whole [0b10110110, 0xC5] = some (.ldxZpY 0xC5) := by decide

/-- `AE ll hh` (R102). -/
theorem test_decode_ldxAbs : whole [0b10101110, 0x34, 0x92] = some (.ldxAbs 0x9234) := by decide

/-- `BE ll hh` (R103). -/
theorem test_decode_ldxAbsY : whole [0b10111110, 0x34, 0x92] = some (.ldxAbsY 0x9234) := by decide

/-- `A0 nn` (R104). -/
theorem test_decode_ldyImm : whole [0b10100000, 0xC5] = some (.ldyImm 0xC5) := by decide

/-- `A4 nn` (R105). -/
theorem test_decode_ldyZp : whole [0b10100100, 0xC5] = some (.ldyZp 0xC5) := by decide

/-- `B4 nn` (R106). -/
theorem test_decode_ldyZpX : whole [0b10110100, 0xC5] = some (.ldyZpX 0xC5) := by decide

/-- `AC ll hh` (R107). -/
theorem test_decode_ldyAbs : whole [0b10101100, 0x34, 0x92] = some (.ldyAbs 0x9234) := by decide

/-- `BC ll hh` (R108). -/
theorem test_decode_ldyAbsX : whole [0b10111100, 0x34, 0x92] = some (.ldyAbsX 0x9234) := by decide

/-- `85 nn` (R122). -/
theorem test_decode_staZp : whole [0b10000101, 0xC5] = some (.staZp 0xC5) := by decide

/-- `95 nn` (R123). -/
theorem test_decode_staZpX : whole [0b10010101, 0xC5] = some (.staZpX 0xC5) := by decide

/-- `8D ll hh` (R124). -/
theorem test_decode_staAbs : whole [0b10001101, 0x34, 0x92] = some (.staAbs 0x9234) := by decide

/-- `9D ll hh` (R125). -/
theorem test_decode_staAbsX : whole [0b10011101, 0x34, 0x92] = some (.staAbsX 0x9234) := by decide

/-- `81 nn` (R126). -/
theorem test_decode_staIndX : whole [0b10000001, 0xC5] = some (.staIndX 0xC5) := by decide

/-- `91 nn` (R127). -/
theorem test_decode_staIndY : whole [0b10010001, 0xC5] = some (.staIndY 0xC5) := by decide

/-- `86 nn` (R128). -/
theorem test_decode_stxZp : whole [0b10000110, 0xC5] = some (.stxZp 0xC5) := by decide

/-- `96 nn` (R129). -/
theorem test_decode_stxZpY : whole [0b10010110, 0xC5] = some (.stxZpY 0xC5) := by decide

/-- `8E ll hh` (R130). -/
theorem test_decode_stxAbs : whole [0b10001110, 0x34, 0x92] = some (.stxAbs 0x9234) := by decide

/-- `84 nn` (R131). -/
theorem test_decode_styZp : whole [0b10000100, 0xC5] = some (.styZp 0xC5) := by decide

/-- `94 nn` (R132). -/
theorem test_decode_styZpX : whole [0b10010100, 0xC5] = some (.styZpX 0xC5) := by decide

/-- `8C ll hh` (R133). -/
theorem test_decode_styAbs : whole [0b10001100, 0x34, 0x92] = some (.styAbs 0x9234) := by decide

/-- `20 ll hh` (R140). -/
theorem test_decode_jsr : whole [0b00100000, 0x34, 0x92] = some (.jsr 0x9234) := by decide

/-- R59. -/
theorem test_encode_lda_zeroPageX : encode (.ldaZpX 0x32) = [0xB5, 0x32] := by decide

/-- R59. -/
theorem test_encode_jsr : encode (.jsr 0xFF10) = [0x20, 0x10, 0xFF] := by decide

/-- V-E6. -/
theorem test_decode_rejects_by_name :
    decode [0xB9, 0x00, 0x20] = .error (.opcode (.unknownOpcode 0xB9)) := by decide

theorem test_decode_rejects_truncated : decode [0xAD, 0x00] = .error .truncated := by decide

/-- The numbering of spec/opcode_table.json (R50). -/
theorem test_table_words :
    [decodeTableWord 16 0x32B5, decodeTableWord 24 0xFF1020, decodeTableWord 8 0xBE] =
      [some (.ldaZpX 0x32), some (.jsr 0xFF10), some (.ldxAbsY 0x0000)] := by decide

/-- The word is the first instruction after reset. -/
theorem test_withFetchWord :
    (stepped (State.reset.withFetchWord 24 0xFF1020)).map State.pc = some 0xFF10 := by decide

/-! ## Loads (spec/95_test_vectors.md V-L) -/

/-- V-L1. -/
theorem test_ldaImm_zero :
    loaded .a { prog 0x0300 [0xA9, 0x00] with a := 0x55, flagN := true } =
      some (0x00, true, false, 0x0302, 2) := by decide

/-- V-L3. -/
theorem test_ldaImm_clears :
    loaded .a { prog 0x0300 [0xA9, 0x7F] with flagZ := true, flagN := true } =
      some (0x7F, false, false, 0x0302, 2) := by decide

/-- V-L5. -/
theorem test_ldaZp :
    loaded .a (put (prog 0x0300 [0xA5, 0x42]) [(0x0042, 0x05)]) =
      some (0x05, false, false, 0x0302, 3) := by decide

/-- V-L8. -/
theorem test_ldaZpX_wraps :
    loaded .a { put (prog 0x0300 [0xB5, 0x80]) [(0x007F, 0xAA), (0x017F, 0x11)] with x := 0xFF } =
      some (0xAA, false, true, 0x0302, 4) := by decide

/-- V-L11. -/
theorem test_ldaAbs_top :
    loaded .a (put (prog 0x0300 [0xAD, 0xFF, 0xFF]) [(0xFFFF, 0x91)]) =
      some (0x91, false, true, 0x0303, 4) := by decide

/-- V-L39. -/
theorem test_ldaAbs_own_bytes :
    loaded .a (prog 0x0300 [0xAD, 0x00, 0x03]) =
      some (0xAD, false, true, 0x0303, 4) := by decide

/-- V-L13. -/
theorem test_ldaAbsX_crosses :
    loaded .a { put (prog 0x0300 [0xBD, 0x50, 0x20]) [(0x214F, 0x02)] with x := 0xFF } =
      some (0x02, false, false, 0x0303, 5) := by decide

/-- V-L14. -/
theorem test_ldaAbsX_no_cross :
    loaded .a { put (prog 0x0300 [0xBD, 0xFF, 0x20]) [(0x20FF, 0x03)] with x := 0x00 } =
      some (0x03, false, false, 0x0303, 4) := by decide

/-- V-L19. -/
theorem test_ldaIndX_pointer_at_ff :
    loaded .a { put (prog 0x0300 [0xA1, 0xF0]) [(0x00FF, 0x34), (0x0100, 0x12), (0x0000, 0x99), (0x1234, 0xEE), (0x9934, 0x11)] with x := 0x0F } =
      some (0xEE, false, true, 0x0302, 6) := by decide

/-- V-L20. -/
theorem test_ldaIndX_wraps :
    loaded .a { put (prog 0x0300 [0xA1, 0xFF]) [(0x0003, 0x40), (0x0102, 0xFF)] with x := 0x03 } =
      some (0x00, true, false, 0x0302, 6) := by decide

/-- V-L23. -/
theorem test_ldaIndY_crosses :
    loaded .a { put (prog 0x0300 [0xB1, 0xFF]) [(0x00FF, 0x01), (0x0100, 0xFF), (0x0000, 0x77)] with y := 0xFF } =
      some (0x77, false, false, 0x0302, 6) := by decide

/-- V-L24. -/
theorem test_ldaIndY_ignores_x :
    loaded .a { put (prog 0x0300 [0xB1, 0x10]) [(0x0011, 0x30), (0x3010, 0x80)] with y := 0x10, x := 0x55 } =
      some (0x80, false, true, 0x0302, 5) := by decide

/-- V-L26. -/
theorem test_ldxImm :
    loaded .x { prog 0x0300 [0xA2, 0x00] with x := 0x33 } =
      some (0x00, true, false, 0x0302, 2) := by decide

/-- V-L27. -/
theorem test_ldxZp :
    loaded .x (put (prog 0x0300 [0xA6, 0xFC]) [(0x00FC, 0xFE)]) =
      some (0xFE, false, true, 0x0302, 3) := by decide

/-- V-L28. -/
theorem test_ldxZpY_wraps :
    loaded .x { put (prog 0x0300 [0xB6, 0xF0]) [(0x0010, 0x7F), (0x0110, 0x01)] with y := 0x20 } =
      some (0x7F, false, false, 0x0302, 4) := by decide

/-- V-L29. -/
theorem test_ldxAbs :
    loaded .x (put (prog 0x0300 [0xAE, 0x00, 0x30]) [(0x3000, 0xC0)]) =
      some (0xC0, false, true, 0x0303, 4) := by decide

/-- V-L30. -/
theorem test_ldxAbsY_crosses :
    loaded .x { put (prog 0x0300 [0xBE, 0x80, 0x40]) [(0x4100, 0x01)] with y := 0x80 } =
      some (0x01, false, false, 0x0303, 5) := by decide

/-- V-L31. -/
theorem test_ldxAbsY_no_cross :
    loaded .x { put (prog 0x0300 [0xBE, 0x80, 0x40]) [(0x40FF, 0x02)] with y := 0x7F } =
      some (0x02, false, false, 0x0303, 4) := by decide

/-- V-L33. -/
theorem test_ldyImm :
    loaded .y (prog 0x0300 [0xA0, 0xC3]) =
      some (0xC3, false, true, 0x0302, 2) := by decide

/-- V-L34. -/
theorem test_ldyZp :
    loaded .y (put (prog 0x0300 [0xA4, 0x00]) [(0x0000, 0x81)]) =
      some (0x81, false, true, 0x0302, 3) := by decide

/-- V-L35. -/
theorem test_ldyZpX_wraps :
    loaded .y { prog 0x0300 [0xB4, 0x80] with x := 0xFF, y := 0x01 } =
      some (0x00, true, false, 0x0302, 4) := by decide

/-- V-L36. -/
theorem test_ldyAbs :
    loaded .y (put (prog 0x0300 [0xAC, 0xFF, 0xFF]) [(0xFFFF, 0x40)]) =
      some (0x40, false, false, 0x0303, 4) := by decide

/-- V-L37. -/
theorem test_ldyAbsX_crosses :
    loaded .y { put (prog 0x0300 [0xBC, 0xFF, 0x12]) [(0x1300, 0xFF)] with x := 0x01 } =
      some (0xFF, false, true, 0x0303, 5) := by decide

/-- V-L38. -/
theorem test_ldyAbsX_no_cross :
    loaded .y { put (prog 0x0300 [0xBC, 0x00, 0x12]) [(0x12FF, 0x08)] with x := 0xFF } =
      some (0x08, false, false, 0x0303, 4) := by decide

/-! ## Stores (V-S) -/

/-- V-S2. -/
theorem test_staZp_no_flags :
    stored 0x00FF { prog 0x0300 [0x85, 0xFF] with a := 0x80, flagZ := true } =
      some (0x80, true, false, 0x0302, 3) := by decide

/-- V-S4. -/
theorem test_staZpX_wraps :
    stored 0x0001 { prog 0x0300 [0x95, 0xFF] with x := 0x02, a := 0x5A } =
      some (0x5A, false, false, 0x0302, 4) := by decide

/-- V-S6. -/
theorem test_staAbs_own_bytes :
    stored 0x0301 { prog 0x0300 [0x8D, 0x01, 0x03] with a := 0xEE } =
      some (0xEE, false, false, 0x0303, 4) := by decide

/-- V-S7. -/
theorem test_staAbsX_no_cross :
    stored 0x2010 { prog 0x0300 [0x9D, 0x00, 0x20] with x := 0x10, a := 0x55 } =
      some (0x55, false, false, 0x0303, 5) := by decide

/-- V-S9. -/
theorem test_staAbsX_wraps :
    stored 0x0001 { prog 0x0300 [0x9D, 0xFF, 0xFF] with x := 0x02, a := 0x12 } =
      some (0x12, false, false, 0x0303, 5) := by decide

/-- V-S11. -/
theorem test_staIndX_pointer_at_ff :
    stored 0x5000 { put (prog 0x0300 [0x81, 0xFF]) [(0x0100, 0x50), (0x0000, 0x60)] with a := 0x66 } =
      some (0x66, false, false, 0x0302, 6) := by decide

/-- V-S12. -/
theorem test_staIndY_crosses :
    stored 0x2100 { put (prog 0x0300 [0x91, 0x10]) [(0x0010, 0xFF), (0x0011, 0x20)] with y := 0x01, a := 0x22 } =
      some (0x22, false, false, 0x0302, 6) := by decide

/-- V-S14. -/
theorem test_stxZp :
    stored 0x0000 { prog 0x0300 [0x86, 0x00] with x := 0x9A } =
      some (0x9A, false, false, 0x0302, 3) := by decide

/-- V-S15. -/
theorem test_stxZpY_wraps :
    stored 0x0010 { prog 0x0300 [0x96, 0xF0] with y := 0x20, x := 0x01 } =
      some (0x01, false, false, 0x0302, 4) := by decide

/-- V-S16. -/
theorem test_stxAbs :
    stored 0x1234 { prog 0x0300 [0x8E, 0x34, 0x12] with x := 0xFF } =
      some (0xFF, false, false, 0x0303, 4) := by decide

/-- V-S17. -/
theorem test_styZp :
    stored 0x0040 { prog 0x0300 [0x84, 0x40] with y := 0x01 } =
      some (0x01, false, false, 0x0302, 3) := by decide

/-- V-S18. -/
theorem test_styZpX_wraps :
    stored 0x0000 { prog 0x0300 [0x94, 0xFF] with x := 0x01, y := 0x77 } =
      some (0x77, false, false, 0x0302, 4) := by decide

/-- V-S19. -/
theorem test_styAbs_top :
    stored 0xFFFF { prog 0x0300 [0x8C, 0xFF, 0xFF] with y := 0x3C } =
      some (0x3C, false, false, 0x0303, 4) := by decide

/-! ## JSR (V-J) -/

/-- V-J1, S6. -/
theorem test_jsr_from_reset :
    called 0x00FC (prog 0xFFFC [0x20, 0x10, 0xFF]) = some (0xFB, 0xFF10, 0xFE, 0xFF, 6) := by decide

/-- V-J4: the opcode at `0xFFFF`, the push in page 1. -/
theorem test_jsr_sp_one :
    called 0x0100 (((prog 0xFFFF [0x20, 0x00, 0x80])).setSp 0x01) =
      some (0xFF, 0x8000, 0x01, 0x00, 6) := by decide

/-! ## Fatal conditions, status, reset (V-E, V-R, S9) -/

/-- V-E2. -/
theorem test_unknown_opcode :
    fatal (prog 0x0300 [0xEA, 0x00, 0x20]) = some (.unknownOpcode 0xEA 0x0300) := by decide

/-- V-E12. -/
theorem test_word_at_ffff :
    fatal (prog 0xFFFE [0x8D, 0x00, 0x00]) = some (.wordAccessOutOfRange 0xFFFF) := by decide

/-- R176. -/
theorem test_unknown_before_word :
    fatal (prog 0xFFFE [0x4C, 0x00, 0x00]) = some (.unknownOpcode 0x4C 0xFFFE) := by decide

/-- S9, on a table with an illegal row. -/
theorem test_illegal_row :
    (match dispatchStep [⟨0x00, .load, .zeroPageX, some .x⟩] State.reset with
      | .fault f => some f
      | .next _ => none
      | .refused _ => none) = some (.illegalCombination 0x00) := by decide

/-- V-R4. -/
theorem test_fatal_status :
    (operate .step State.reset).2.status = .faulted (.unknownOpcode 0x00 0xFFFC) := by decide

/-- V-R6. -/
theorem test_refused_before_reset :
    refusal { State.reset with status := .uninit } = some .beforeReset := by decide

/-- V-R7. -/
theorem test_refused_after_fatal : refusal (operate .step State.reset).2 = some .afterFatal := by decide

/-- V-R3. -/
theorem test_reset_after_fatal : (operate .reset (operate .step State.reset).2).2 = State.reset := by decide

/-! ## The loop (V-X) -/

/-- Program X. -/
def progX : State := (prog 0xFFFC [0xA9, 0x80, 0x85, 0x10]).placeBytes 0x0000 [0xA2, 0x80]

/-- V-X2, S7. -/
theorem test_execute_overshoots : ran 1 progX = some (2, 0xFFFE) := by decide

/-- V-X1. -/
theorem test_execute_zero : ran 0 progX = some (0, 0xFFFC) := by decide

/-- V-X6. -/
theorem test_execute_six : ran 6 progX = some (7, 0x0002) := by decide

/-- V-X8. -/
theorem test_execute_fatal : (operate (.execute 8) progX).1 = .fatal (.unknownOpcode 0x00 0x0002) := by decide

/-! ## Witnesses: something meets the hypotheses of each statement that has any, clause by clause -/

/-- A state before the first reset. -/
def before : State := { State.reset with status := .uninit }

/-- A state after a fatal condition. -/
def after : State := (operate .step State.reset).2

/-- A ready state with data at both ends of memory and both sides of the zero page's end. -/
def edges : State :=
  put State.reset [(0x0000, 0x77), (0x00FF, 0x34), (0x0100, 0x12), (0xFFFE, 0xCD), (0xFFFF, 0xAB)]

theorem witness_OnlyResetLeavesUninitAndFaulted :
    HostOp.readPc ≠ .reset ∧ before.status = .uninit ∧
      after.status = .faulted (.unknownOpcode 0x00 0xFFFC) := by decide

theorem witness_OnlyFatalConditionsLeaveReady :
    State.reset.status = .ready ∧ (operate .step State.reset).1 = .fatal (.unknownOpcode 0x00 0xFFFC) ∧
      (operate .step (prog 0x0300 [0xA9, 0x00])).1 = .cycles 2 := by decide

theorem witness_ByteWriteChangesOneByte :
    Memory.wf edges.mem = true ∧ (edges.writeByte 0xFFFF 0x00).readByte 0xFFFF = 0x00 ∧
      (0xFFFE : Word) ≠ 0xFFFF ∧ (edges.writeByte 0xFFFF 0x00).readByte 0xFFFE = 0xCD := by decide

theorem witness_WordReadIsLittleEndian :
    (0xFFFE : Word) ≠ 0xFFFF ∧ edges.readWord 0xFFFE = .ok 0xABCD := by decide

theorem witness_WordWriteIsLittleEndian :
    (0xFFFE : Word) ≠ 0xFFFF ∧ Memory.wf edges.mem = true ∧
      (edges.writeWord 0xFFFE 0x1234).toOption.map (fun t => (t.readByte 0xFFFE, t.readByte 0xFFFF)) =
        some (0x34, 0x12) ∧ (0x0000 : Word) ≠ 0xFFFE ∧ (0x0000 : Word) ≠ 0xFFFE + 1 := by decide

theorem witness_CanonicalMemoriesReadingAlikeAreEqual :
    Memory.wf (Memory.write (Memory.write [] 7 0x02) 5 0x01) = true ∧
      Memory.wf (Memory.write (Memory.write [] 5 0x01) 7 0x02) = true ∧
      ∀ addr : Word, Memory.read (Memory.write (Memory.write [] 7 0x02) 5 0x01) addr.toNat =
        Memory.read (Memory.write (Memory.write [] 5 0x01) 7 0x02) addr.toNat :=
  ⟨by decide, by decide, fun _ => rfl⟩

theorem witness_FetchWordAdvancesPcByTwo :
    (edges.setPc 0xFFFE).pc ≠ 0xFFFF ∧ (edges.setPc 0xFFFE).fetchWord.toOption.map (·.1) = some 0xABCD ∧
      (edges.setPc 0xFFFF).pc = 0xFFFF ∧ (edges.setPc 0xFFFF).fetchWord.toOption.map (·.1) = none := by
  decide

theorem witness_EncodeOfDecodeIsTheBytes :
    decode [0x20, 0x10, 0xFF, 0x07] = .ok (.jsr 0xFF10, [0x07]) := by decide

theorem witness_ExactlyThirtyOpcodeBytes :
    (0xBE : Byte) ∈ opcodeTable.map OpcodeEntry.opcode ∧ (0xB9 : Byte) ∉ opcodeTable.map OpcodeEntry.opcode ∧
      decodeWindow 0xBE 0x00 0x20 = .ok (.ldxAbsY 0x2000) ∧
      decodeWindow 0xB9 0x00 0x20 = .error (.unknownOpcode 0xB9) := by decide

theorem witness_IllegalCombinationIsUnreachable :
    (⟨0xB9, .load, .absoluteY, some .a⟩ : OpcodeEntry) ∉ opcodeTable ∧
      (⟨0xA9, .load, .immediate, some .a⟩ : OpcodeEntry) ∈ opcodeTable ∧
      lookup [⟨0x00, .load, .zeroPageX, some .x⟩] (State.reset.readByte State.reset.pc) =
        some ⟨0x00, .load, .zeroPageX, some .x⟩ ∧
      legal .load .zeroPageX (some .x) = false ∧
      lookup [⟨0x00, .jsr, .zeroPage, none⟩] ((State.reset.setPc 0xFFFE).readByte 0xFFFE) =
        some ⟨0x00, .jsr, .zeroPage, none⟩ ∧
      legal .jsr .zeroPage none = false ∧ legal .store .immediate (some .a) = false := by decide

theorem witness_AbsoluteModesWrapAtTheTop :
    (edges.setPc 0xFFFE).pc ≠ 0xFFFF ∧ resolve (.absoluteX 0xFFF0) { edges with x := 0x20 } = .ok ⟨0x0010, true⟩ := by
  decide

theorem witness_LoadFamilyRule :
    Reg.a ≠ .x ∧ ¬ (AddrForm.mode (.absolute 0x1234)).format = .opD8 ∧
      ¬ ((AddrForm.mode (.absolute 0x1234)).format = .opA16 ∧ (edges.setPc 0xFFFD).pc = 0xFFFE) ∧
      ¬ ((AddrForm.mode (.zeroPage 0x12)).format = .opA16 ∧ (edges.setPc 0xFFFE).pc = 0xFFFE) ∧
      ((AddrForm.mode (.absoluteY 0x1234)).format = .opA16 ∧ (edges.setPc 0xFFFE).pc = 0xFFFE) := by decide

theorem witness_LoadZeroPageCompletes : (0x34 : Byte) = edges.readByte (zext16 0xFF) := by decide

theorem witness_LoadZeroPageIndexedCompletes :
    (0x77 : Byte) = { edges with x := 0x01, y := 0x00 }.readByte (zext16 (0xFF + 0x01)) ∧
      (0x34 : Byte) = { edges with x := 0x01, y := 0x00 }.readByte (zext16 (0xFF + 0x00)) := by decide

theorem witness_LoadAbsoluteCompletes :
    (edges.setPc 0xFFFF).pc ≠ 0xFFFE ∧ (0xAB : Byte) = (edges.setPc 0xFFFF).readByte 0xFFFF := by decide

theorem witness_LoadAbsoluteIndexedCompletes :
    { edges with x := 0x01, y := 0x00 }.pc ≠ 0xFFFE ∧
      (0x77 : Byte) = { edges with x := 0x01, y := 0x00 }.readByte (0xFFFF + zext16 0x01) ∧
      (0xAB : Byte) = { edges with x := 0x01, y := 0x00 }.readByte (0xFFFF + zext16 0x00) := by decide

theorem witness_LdaIndirectXCompletes :
    (0x00FF : Word) = zext16 (0xF0 + { edges with x := 0x0F }.x) ∧
      (0x1234 : Word) = wordOf (edges.readByte 0x00FF) (edges.readByte (0x00FF + 1)) ∧
      (0x00 : Byte) = edges.readByte 0x1234 := by decide

theorem witness_LdaIndirectYCompletes :
    (0x00FF : Word) = zext16 0xFF ∧
      (0x1333 : Word) = wordOf (edges.readByte 0x00FF) (edges.readByte (0x00FF + 1)) + zext16 0xFF ∧
      (0x00 : Byte) = edges.readByte 0x1333 := by decide

theorem witness_StoreFamilyRule :
    ¬ ((AddrForm.mode (.absoluteX 0x1234)).format = .opA16 ∧ (edges.setPc 0xFFFF).pc = 0xFFFE) ∧
      ¬ ((AddrForm.mode (.indirectY 0x12)).format = .opA16 ∧ (edges.setPc 0xFFFE).pc = 0xFFFE) ∧
      ((AddrForm.mode (.absolute 0x1234)).format = .opA16 ∧ (edges.setPc 0xFFFE).pc = 0xFFFE) := by decide

theorem witness_StoreAbsoluteCompletes :
    (edges.setPc 0xFFFF).pc ≠ 0xFFFE ∧ Memory.wf (edges.setPc 0xFFFF).mem = true := by decide

theorem witness_StaAbsoluteXCompletes :
    (edges.setPc 0xFFFD).pc ≠ 0xFFFE ∧ Memory.wf (edges.setPc 0xFFFD).mem = true := by decide

theorem witness_StaIndirectCompletes :
    (0x00FF : Word) = zext16 (0xF0 + { edges with x := 0x0F }.x) ∧ (0x00F0 : Word) = zext16 0xF0 := by decide

theorem witness_LegalStorePairsWithoutAnOpcode : (edges.setPc 0xFFFF).pc ≠ 0xFFFE := by decide

theorem witness_JsrCompletes :
    { edges with sp := 0x01 }.pc ≠ 0xFFFE ∧ (0x0100 : Word) = zext16 ({ edges with sp := 0x01 }.sp - 2) + 1 ∧
      Memory.wf edges.mem = true := by decide

theorem witness_PushAddressesFromTheOldSp :
    2 ≤ (0x02 : Byte).toNat ∧ (pushAddress (0x02 - 2)).toNat = 1 ∧ (pushAddress (0xFD - 2)).toNat = 0xFC := by
  decide

/-- A load, a store and `JSR` complete, and the store resolves its operand. -/
theorem witness_NothingElseChanges :
    (∃ t, exec (.ldaZp 0xFF) edges = .next t) ∧ (∃ t, exec (.jsr 0x0300) edges = .next t) ∧
      (∃ t, exec (.staIndX 0xFF) edges = .next t) ∧ storeForm (.staIndX 0xFF) = some (.indirectX 0xFF) ∧
      resolve (.indirectX 0xFF) edges = .ok ⟨0x1234, false⟩ :=
  ⟨⟨_, rfl⟩, ⟨_, rfl⟩, ⟨_, rfl⟩, by decide, by decide⟩

theorem witness_PcAdvancesByTheModesLength :
    Instr.operation (.ldxAbs 0x1234) ≠ .jsr ∧
      (match exec (.ldxAbs 0x1234) (edges.setPc 0xFFFF) with
        | .next t => some t.pc
        | .fault _ => none
        | .refused _ => none) = some 0x0002 := by decide

/-- Two states that differ in flags only, in which an instruction completes and another is fatal; a load with
its register; an instruction that is no load; a ready state. -/
theorem witness_OnlyLoadsWriteFlagsAndNothingReadsThem :
    edges.noFlags = { edges with flagC := true, flagN := true }.noFlags ∧
      edges ≠ { edges with flagC := true, flagN := true } ∧
      (∃ t, exec (.ldyImm 0x80) edges = .next t) ∧
      exec (.jsr 0x0300) (edges.setPc 0xFFFE) = .fault (.wordAccessOutOfRange 0xFFFF) ∧
      Instr.operation (.ldyImm 0x80) = .load ∧ Instr.register (.ldyImm 0x80) = some .y ∧
      Instr.operation (.styZp 0x10) ≠ .load ∧ edges.status = .ready :=
  ⟨by decide, by decide, ⟨_, rfl⟩, rfl, rfl, rfl, by decide, rfl⟩

theorem witness_InstructionsFaultOnlyAtTheTop :
    Instr.length (.ldaAbsX 0x2000) = 3 ∧ (edges.setPc 0xFFFE).pc = 0xFFFE ∧
      exec (.ldaAbsX 0x2000) (edges.setPc 0xFFFE) = .fault (.wordAccessOutOfRange 0xFFFF) :=
  ⟨rfl, rfl, rfl⟩

theorem witness_StepRunsTheDecodedInstruction :
    (prog 0xFFFF [0xA2, 0x80]).status = .ready ∧
      decode [(prog 0xFFFF [0xA2, 0x80]).readByte 0xFFFF, (prog 0xFFFF [0xA2, 0x80]).readByte (0xFFFF + 1),
        (prog 0xFFFF [0xA2, 0x80]).readByte (0xFFFF + 2)] = .ok (.ldxImm 0x80, [0x00]) := by decide

theorem witness_StepIsTheDispatcherPseudocode :
    State.reset.status = .ready ∧ before.status ≠ .ready ∧ after.status ≠ .ready ∧
      (stepped (prog 0x0300 [0x20, 0x00, 0x03])).map State.cycles = some 6 := by decide

theorem witness_StepCompletesExactlyWhenItCan :
    (prog 0xFFFD [0xAD, 0x34, 0x12]).canStep = true ∧ (prog 0xFFFE [0xAD, 0x34, 0x12]).canStep = false ∧
      (prog 0xFFFE [0xA9, 0x44]).canStep = true ∧ State.reset.canStep = false ∧ before.canStep = false := by
  decide

theorem witness_StepFaultsExactlyWhen :
    State.reset.opcodeKnown = false ∧ (prog 0xFFFE [0xAD, 0x34, 0x12]).operandOutOfRange = true ∧
      State.reset.status = .ready ∧ (prog 0xFFFE [0xAD, 0x34, 0x12]).status = .ready := by decide

theorem witness_FatalStepChangesOnlyPcAndStatus :
    fatal State.reset = some (.unknownOpcode 0x00 0xFFFC) ∧
      fatal (prog 0xFFFE [0xAD, 0x34, 0x12]) = some (.wordAccessOutOfRange 0xFFFF) := by decide

theorem witness_StepKeepsTheInvariant :
    (prog 0x0300 [0x20, 0x00, 0x03]).Inv ∧ ∃ t, step (prog 0x0300 [0x20, 0x00, 0x03]) = .next t :=
  ⟨⟨by decide, by decide, by decide⟩, ⟨_, rfl⟩⟩

theorem witness_EveryOperationKeepsTheInvariant : edges.Inv ∧ after.Inv ∧ before.Inv :=
  ⟨⟨by decide, by decide, by decide⟩, ⟨by decide, by decide, by decide⟩, ⟨by decide, by decide, by decide⟩⟩

theorem witness_ExecuteZeroDoesNothing : progX.status = .ready := by decide

theorem witness_ExecuteIsAStepThenTheRest :
    progX.status = .ready ∧ 0 < 3 ∧ (stepped progX).map State.cycles = some 2 ∧
      fatal State.reset = some (.unknownOpcode 0x00 0xFFFC) := by decide

/-- The overshoot reaches 5: `A9 00`, `20 00 80`, `execute(3)`. -/
theorem witness_EveryRunMeetsItsBudgetOrIsFatal :
    (prog 0x0300 [0xA9, 0x00, 0x20, 0x00, 0x80]).status = .ready ∧ 0 < 3 ∧
      ran 3 (prog 0x0300 [0xA9, 0x00, 0x20, 0x00, 0x80]) = some (8, 0x8000) ∧
      (operate (.execute 1) State.reset).1 = .fatal (.unknownOpcode 0x00 0xFFFC) := by decide

theorem witness_DirectAccessReadsBackWhatWasWritten :
    edges.status = .ready ∧ Reg.x ≠ .a ∧ Flag.n ≠ .z ∧ Memory.wf edges.mem = true ∧
      (0x0000 : Word) ≠ 0xFFFF := by decide

end Sys2Proof.Tests
end

/-! PROOFS. The statements about the state (spec/10_state.md): first what the accessors give after an update,
what an instruction that completes leaves unchanged, how steps, runs and direct access can end; then the
statements, each from these. -/

namespace Sys2Proof.Machine

/-! ## Accessors after an update -/

@[simp] theorem State.getReg_retire (s : State) (n : Nat) (r : Reg) : (s.retire n).getReg r = s.getReg r := by
  cases r <;> rfl

@[simp] theorem State.getReg_writeByte (s : State) (addr : Word) (v : Byte) (r : Reg) :
    (s.writeByte addr v).getReg r = s.getReg r := by cases r <;> rfl

@[simp] theorem State.getReg_setSp (s : State) (v : Byte) (r : Reg) : (s.setSp v).getReg r = s.getReg r := by
  cases r <;> rfl

@[simp] theorem State.getReg_setZN (s : State) (v : Byte) (r : Reg) : (s.setZN v).getReg r = s.getReg r := by
  cases r <;> rfl

@[simp] theorem State.getReg_loadReg_same (s : State) (r : Reg) (v : Byte) : (s.loadReg r v).getReg r = v := by
  simp [State.loadReg]

theorem State.getReg_loadReg_other (s : State) {r q : Reg} (v : Byte) (h : q ≠ r) :
    (s.loadReg r v).getReg q = s.getReg q := by
  simp [State.loadReg, State.getReg_setReg_other s v h]

theorem pushAddress_eq (sp : Byte) : pushAddress sp = zext16 sp + 1 := by
  simp [pushAddress, Config.stackPageOffset]

theorem pushAddress_add_one (sp : Byte) : pushAddress sp + 1 = zext16 sp + 2 := by
  rw [pushAddress_eq, BitVec.add_assoc]
  rfl

@[simp] theorem State.getReg_pushed (s : State) (w : Word) (r : Reg) : (s.pushed w).getReg r = s.getReg r := by
  simp [State.pushed]

@[simp] theorem State.pushed_status (s : State) (w : Word) : (s.pushed w).status = s.status := rfl

/-- A push writes the two bytes just above the new `sp` and no other (R141). -/
theorem State.readByte_pushed_other (s : State) (w : Word) {b : Word} (h1 : b ≠ zext16 (s.sp - 2) + 1)
    (h2 : b ≠ zext16 (s.sp - 2) + 2) : (s.pushed w).readByte b = s.readByte b := by
  rw [State.pushed, State.readByte_writeByte_other _ _ (pushAddress_add_one _ ▸ h2),
    State.readByte_writeByte_other _ _ (pushAddress_eq _ ▸ h1), State.readByte_setSp]

theorem State.pushed_wf {s : State} (w : Word) (h : Memory.wf s.mem = true) :
    Memory.wf (s.pushed w).mem = true :=
  State.writeByte_wf _ _ (State.writeByte_wf _ _ h)

/-! ## An instruction that completes, and one that does not -/

/-- What an instruction that completed was and did: a load, a store, or `JSR`. -/
theorem exec_next {i : Instr} {s t : State} (h : exec i s = .next t) :
    (∃ r v n, LoadsInto i s t r v n) ∨ (∃ r addr n, StoresTo i s t r addr n) ∨
      (∃ w, i = .jsr w ∧ t = ((s.pushed (s.pc + 2)).setPc w).retire 6) := by
  rcases exec_outcome i s with ⟨-, -, hf⟩ | ⟨-, t', ht, hcases⟩
  · rw [hf] at h
    cases h
  · rw [ht] at h
    cases h
    exact hcases

/-- The one fatal condition inside an instruction (R173). -/
theorem exec_fault {i : Instr} {s : State} {f : Fault} (h : exec i s = .fault f) :
    f = .wordAccessOutOfRange Config.lastAddress := by
  rcases exec_outcome i s with ⟨-, -, hf⟩ | ⟨-, t, ht, -⟩
  · rw [hf] at h
    cases h
    rfl
  · rw [ht] at h
    cases h

/-- A store instruction is `storeTo` of the operand it names. -/
theorem exec_of_storeForm {i : Instr} {form : AddrForm} (h : storeForm i = some form) :
    ∃ r, ∀ s, exec i s = storeTo r form s := by
  cases i <;> cases h <;> exact ⟨_, fun _ => rfl⟩

section Frames

variable {i : Instr} {s t : State}

theorem exec_getReg (h : exec i s = .next t) {r : Reg} (hr : ¬ (i.operation = .load ∧ i.register = some r)) :
    t.getReg r = s.getReg r := by
  rcases exec_next h with ⟨q, v, n, ho, hq, -, rfl⟩ | ⟨q, addr, n, -, -, -, rfl⟩ | ⟨w, -, rfl⟩
  · have hne : r ≠ q := fun e => hr ⟨ho, e ▸ hq⟩
    simp [State.getReg_loadReg_other _ v hne]
  · simp
  · simp

theorem exec_sp (h : exec i s = .next t) (hi : i.operation ≠ .jsr) : t.sp = s.sp := by
  rcases exec_next h with ⟨q, v, n, -, -, -, rfl⟩ | ⟨q, addr, n, -, -, -, rfl⟩ | ⟨w, rfl, -⟩
  · simp
  · simp
  · exact absurd rfl hi

/-- No instruction writes the five inert flags (R16). -/
theorem exec_inert_flags (h : exec i s = .next t) :
    t.flagC = s.flagC ∧ t.flagI = s.flagI ∧ t.flagD = s.flagD ∧ t.flagB = s.flagB ∧ t.flagV = s.flagV := by
  rcases exec_next h with ⟨q, v, n, -, -, -, rfl⟩ | ⟨q, addr, n, -, -, -, rfl⟩ | ⟨w, -, rfl⟩
  · simp
  · simp
  · simp [State.pushed]

theorem exec_zn_of_not_load (h : exec i s = .next t) (hi : i.operation ≠ .load) :
    t.flagZ = s.flagZ ∧ t.flagN = s.flagN := by
  rcases exec_next h with ⟨q, v, n, ho, -, -, -⟩ | ⟨q, addr, n, -, -, -, rfl⟩ | ⟨w, -, rfl⟩
  · exact absurd ho hi
  · simp
  · simp [State.pushed]

theorem exec_status (h : exec i s = .next t) : t.status = s.status := by
  rcases exec_next h with ⟨q, v, n, -, -, -, rfl⟩ | ⟨q, addr, n, -, -, -, rfl⟩ | ⟨w, -, rfl⟩ <;> simp

theorem exec_cycles (h : exec i s = .next t) : 2 ≤ t.cycles ∧ t.cycles ≤ 6 := by
  rcases exec_next h with ⟨q, v, n, -, -, hn, rfl⟩ | ⟨q, addr, n, -, -, hn, rfl⟩ | ⟨w, -, rfl⟩
  · exact hn
  · exact hn
  · simp

theorem exec_mem_wf (h : exec i s = .next t) (hs : Memory.wf s.mem = true) : Memory.wf t.mem = true := by
  rcases exec_next h with ⟨q, v, n, -, -, -, rfl⟩ | ⟨q, addr, n, -, -, -, rfl⟩ | ⟨w, -, rfl⟩
  · simpa using hs
  · exact State.writeByte_wf addr _ hs
  · exact State.pushed_wf _ hs

theorem exec_load_readByte (h : exec i s = .next t) (hi : i.operation = .load) (b : Word) :
    t.readByte b = s.readByte b := by
  rcases exec_next h with ⟨q, v, n, -, -, -, rfl⟩ | ⟨q, addr, n, ho, -, -, -⟩ | ⟨w, rfl, -⟩
  · simp
  · simp [ho] at hi
  · cases hi

/-- A store changes no byte but the one its operand resolves to in the state before (R120). -/
theorem exec_store_readByte (h : exec i s = .next t) {form : AddrForm} {res : Resolved}
    (hf : storeForm i = some form) (hres : resolve form s = .ok res) {b : Word} (hb : b ≠ res.addr) :
    t.readByte b = s.readByte b := by
  obtain ⟨r, hx⟩ := exec_of_storeForm hf
  rw [resolve_eq] at hres
  cases hres
  rw [hx, storeTo_eq] at h
  split at h
  · cases h
  · cases h
    simp [State.readByte_writeByte_other _ _ hb]

theorem exec_jsr_readByte (h : exec i s = .next t) (hi : i.operation = .jsr) {b : Word}
    (h1 : b ≠ zext16 (s.sp - 2) + 1) (h2 : b ≠ zext16 (s.sp - 2) + 2) : t.readByte b = s.readByte b := by
  rcases exec_next h with ⟨q, v, n, ho, -, -, -⟩ | ⟨q, addr, n, ho, -, -, -⟩ | ⟨w, -, rfl⟩
  · simp [ho] at hi
  · simp [ho] at hi
  · simp [State.readByte_pushed_other s _ h1 h2]

end Frames

/-! ## Steps and runs -/

/-- A completed step of any state starts and ends in `READY` (R23). -/
theorem step_next_ready {s t : State} (h : step s = .next t) : t.status = .ready := by
  obtain ⟨hs, _, _, _, _, hx⟩ := step_next h
  rw [exec_status hx, hs]

/-- A step raises possible fatal conditions only (R58, R170, R171). -/
theorem step_fault_possible {s : State} {f : Fault} (h : step s = .fault f) : f.possible = true := by
  cases hs : s.status with
  | uninit => simp [step_uninit hs] at h
  | faulted g => simp [step_faulted hs] at h
  | ready =>
    rcases step_ready_cases hs with ⟨_, i, _, _, hx⟩ | ⟨hnone, hx⟩
    · rw [hx] at h
      rw [exec_fault h]
      rfl
    · rw [hx] at h
      cases h
      simp [Fault.possible, hnone]

/-- How a run can end, from a last state `u` in which the property `P` that completed steps keep still holds:
the budget is met, the next step is fatal, or it is refused. -/
inductive RunEnd.From (P : State → Prop) : RunEnd → Prop
  | finished (total : Nat) {u : State} (hu : P u) : RunEnd.From P (.finished total u)
  | fatal {f : Fault} {u : State} (hu : P u) (hf : step u = .fault f) :
      RunEnd.From P (.fatal f (u.enterFatal f))
  | refused {r : Refusal} {u : State} (hu : P u) (hr : step u = .refused r) : RunEnd.From P (.refused r u)

/-- The induction over the loop, once for every property that completed steps keep. -/
theorem runLoop_from {P : State → Prop} (hstep : ∀ s t, P s → step s = .next t → P t)
    (maxCycles fuel total : Nat) {s : State} (hs : P s) : RunEnd.From P (runLoop maxCycles fuel total s) := by
  induction fuel generalizing total s with
  | zero => exact .finished total hs
  | succ fuel ih =>
    rw [runLoop]
    by_cases hlt : total < maxCycles
    · rw [if_pos hlt]
      cases h : step s with
      | next t => exact ih _ (hstep s t hs h)
      | fault f => exact .fatal hs h
      | refused r => exact .refused hs h
    · rw [if_neg hlt]
      exact .finished total hs

theorem execute_ready {s : State} (n : Nat) (h : s.status = .ready) : execute n s = runLoop n n 0 s := by
  simp only [execute, h]

theorem execute_uninit {s : State} (n : Nat) (h : s.status = .uninit) :
    execute n s = .refused .beforeReset s := by simp only [execute, h]

theorem execute_faulted {s : State} {f : Fault} (n : Nat) (h : s.status = .faulted f) :
    execute n s = .refused .afterFatal s := by simp only [execute, h]

/-- The same for `execute` in any status: where it is refused, so is a step. -/
theorem execute_from {P : State → Prop} (hstep : ∀ s t, P s → step s = .next t → P t) (n : Nat) {s : State}
    (hs : P s) : RunEnd.From P (execute n s) := by
  cases h : s.status with
  | uninit => exact execute_uninit n h ▸ .refused hs (step_uninit h)
  | faulted f => exact execute_faulted n h ▸ .refused hs (step_faulted h)
  | ready => exact execute_ready n h ▸ runLoop_from hstep n n 0 hs

/-! ## Direct access -/

theorem access_ready {s : State} (reply : HostReply) (after : State) (h : s.status = .ready) :
    access s reply after = (reply, after) := by simp only [access, h]

theorem access_uninit {s : State} (reply : HostReply) (after : State) (h : s.status = .uninit) :
    access s reply after = (.refused .beforeReset, s) := by simp only [access, h]

theorem access_faulted {s : State} {f : Fault} (reply : HostReply) (after : State) (h : s.status = .faulted f) :
    access s reply after = (.refused .afterFatal, s) := by simp only [access, h]

/-- What a direct access asks for: an answer that is no fatal condition, and a state after it with the same
status and cost, in canonical memory if the state before is. -/
structure DirectAccess (s : State) (reply : HostReply) (after : State) : Prop where
  notFatal : ∀ f, reply ≠ .fatal f
  status : after.status = s.status
  cycles : after.cycles = s.cycles
  memory : Memory.wf s.mem = true → Memory.wf after.mem = true

/-- A read leaves the state alone. -/
theorem DirectAccess.read (s : State) {reply : HostReply} (h : ∀ f, reply ≠ .fatal f) :
    DirectAccess s reply s := ⟨h, rfl, rfl, id⟩

/-- Every operation is `reset`, `step`, `execute`, or a direct access (R4, R25). -/
inductive OperationKind (s : State) : HostOp → Prop
  | reset : OperationKind s .reset
  | step : OperationKind s .step
  | execute (n : Nat) : OperationKind s (.execute n)
  | direct {op : HostOp} {reply : HostReply} {after : State} (ho : operate op s = access s reply after)
      (hd : DirectAccess s reply after) : OperationKind s op

theorem operation_kind (op : HostOp) (s : State) : OperationKind s op := by
  cases op with
  | reset => exact .reset
  | step => exact .step
  | execute n => exact .execute n
  | readPc => exact .direct rfl (.read s nofun)
  | readSp => exact .direct rfl (.read s nofun)
  | readReg r => exact .direct rfl (.read s nofun)
  | readFlag f => exact .direct rfl (.read s nofun)
  | readMem addr => exact .direct rfl (.read s nofun)
  | writePc v => exact .direct rfl ⟨nofun, rfl, rfl, id⟩
  | writeSp v => exact .direct rfl ⟨nofun, rfl, rfl, id⟩
  | writeReg r v => exact .direct rfl ⟨nofun, by simp, by simp, by simp⟩
  | writeFlag f b => exact .direct rfl ⟨nofun, by simp, by simp, by simp⟩
  | writeMem addr v => exact .direct rfl ⟨nofun, rfl, rfl, State.writeByte_wf addr v⟩

/-! ## The invariant -/

theorem State.reset_Inv : State.reset.Inv := ⟨State.reset_mem_wf, .inl rfl, rfl⟩

theorem step_keeps_Inv (s t : State) (hs : s.Inv) (h : step s = .next t) : t.Inv := by
  obtain ⟨-, _, _, -, -, hx⟩ := step_next h
  exact ⟨exec_mem_wf hx hs.memory, .inr (exec_cycles hx), exec_status hx ▸ hs.status⟩

theorem enterFatal_keeps_Inv {s : State} {f : Fault} (hs : s.Inv) (h : step s = .fault f) :
    (s.enterFatal f).Inv :=
  ⟨hs.memory, .inl rfl, step_fault_possible h⟩

theorem operate_step_keeps_Inv {s : State} (hs : s.Inv) : (operate .step s).2.Inv := by
  simp only [operate]
  cases h : step s with
  | next t => exact step_keeps_Inv s t hs h
  | fault f => exact enterFatal_keeps_Inv hs h
  | refused r => exact hs

theorem operate_execute_keeps_Inv {s : State} (n : Nat) (hs : s.Inv) : (operate (.execute n) s).2.Inv := by
  have hend := execute_from step_keeps_Inv n hs
  simp only [operate]
  generalize execute n s = e at hend
  cases hend with
  | finished total hu => exact hu
  | fatal hu hf => exact enterFatal_keeps_Inv hu hf
  | refused hu hr => exact hu

theorem access_keeps_Inv {s after : State} {reply : HostReply} (hd : DirectAccess s reply after) (hs : s.Inv) :
    (access s reply after).2.Inv := by
  cases h : s.status with
  | uninit => exact access_uninit reply after h ▸ hs
  | faulted f => exact access_faulted reply after h ▸ hs
  | ready =>
    rw [access_ready reply after h]
    exact ⟨hd.memory hs.memory, hd.cycles ▸ hs.cycles, hd.status ▸ hs.status⟩

/-- Settles O50, operation by operation; `execute` by the induction over its loop. -/
theorem everyOperationKeepsTheInvariant : Obligations.EveryOperationKeepsTheInvariant := by
  intro op s hs
  cases operation_kind op s with
  | reset => exact State.reset_Inv
  | step => exact operate_step_keeps_Inv hs
  | execute n => exact operate_execute_keeps_Inv n hs
  | direct ho hd => exact ho ▸ access_keeps_Inv hd hs

/-- Settles O2. -/
theorem resetMeetsTheInvariant : Obligations.ResetMeetsTheInvariant := State.reset_Inv

/-! ## The engine status -/

/-- How an operation leaves `READY`, or stays in it: it answers a fatal condition that the status after it
records, or it answers none and the status is `READY`. -/
def LeavesReadyOnlyFatally (o : HostReply × State) : Prop :=
  (∃ f, o = (.fatal f, o.2) ∧ o.2.status = .faulted f) ∨ ((∀ f, o.1 ≠ .fatal f) ∧ o.2.status = .ready)

theorem operate_step_ready {s : State} (hs : s.status = .ready) : LeavesReadyOnlyFatally (operate .step s) := by
  simp only [operate]
  cases h : step s with
  | next t => exact .inr ⟨nofun, step_next_ready h⟩
  | fault f => exact .inl ⟨f, rfl, rfl⟩
  | refused r => exact .inr ⟨nofun, hs⟩

theorem operate_execute_ready {s : State} (n : Nat) (hs : s.status = .ready) :
    LeavesReadyOnlyFatally (operate (.execute n) s) := by
  have hend := execute_from (P := fun u => u.status = .ready) (fun _ _ _ h => step_next_ready h) n hs
  simp only [operate]
  generalize execute n s = e at hend
  cases hend with
  | finished total hu => exact .inr ⟨nofun, hu⟩
  | @fatal f u hu hf => exact .inl ⟨f, rfl, rfl⟩
  | refused hu hr => exact .inr ⟨nofun, hu⟩

/-- Settles O4, operation by operation; `execute` by the induction over its loop. -/
theorem onlyFatalConditionsLeaveReady : Obligations.OnlyFatalConditionsLeaveReady := by
  intro op s hs
  cases operation_kind op s with
  | reset => exact .inr ⟨nofun, rfl⟩
  | step => exact operate_step_ready hs
  | execute n => exact operate_execute_ready n hs
  | direct ho hd =>
    rw [ho, access_ready _ _ hs]
    exact .inr ⟨hd.notFatal, hd.status.trans hs⟩

theorem operate_uninit {op : HostOp} {s : State} (hop : op ≠ .reset) (hs : s.status = .uninit) :
    operate op s = (.refused .beforeReset, s) := by
  cases operation_kind op s with
  | reset => exact absurd rfl hop
  | step => simp only [operate, step_uninit hs]
  | execute n => simp only [operate, execute_uninit n hs]
  | direct ho _ => rw [ho, access_uninit _ _ hs]

theorem operate_faulted {op : HostOp} {s : State} {f : Fault} (hop : op ≠ .reset) (hs : s.status = .faulted f) :
    operate op s = (.refused .afterFatal, s) := by
  cases operation_kind op s with
  | reset => exact absurd rfl hop
  | step => simp only [operate, step_faulted hs]
  | execute n => simp only [operate, execute_faulted n hs]
  | direct ho _ => rw [ho, access_faulted _ _ hs]

/-- Settles O3. -/
theorem onlyResetLeavesUninitAndFaulted : Obligations.OnlyResetLeavesUninitAndFaulted :=
  fun _ _ hop => ⟨operate_uninit hop, fun _ => operate_faulted hop⟩

/-! ## Canonical memories -/

theorem Memory.wfFrom_cons {lo k : Nat} {v : Byte} {m : List Host.Cell} :
    Memory.wfFrom lo ((k, v) :: m) = true ↔
      lo ≤ k ∧ k < Config.memSize ∧ v ≠ 0#8 ∧ Memory.wfFrom (k + 1) m = true := by
  simp [Memory.wfFrom, and_assoc]

/-- A canonical list that reads, at the first address of another, as that other does cannot start above it:
the byte there is not zero. -/
theorem Memory.le_head_of_read_eq {lo lo' k : Nat} {v : Byte} {m n : List Host.Cell}
    (hm : Memory.wfFrom lo ((k, v) :: m) = true) (hn : Memory.wfFrom lo' n = true)
    (h : Memory.read ((k, v) :: m) k = Memory.read n k) : lo' ≤ k := by
  by_contra hlt
  obtain ⟨-, -, hv, -⟩ := Memory.wfFrom_cons.mp hm
  rw [Memory.read_of_lt hn (by omega)] at h
  exact hv (by simpa [Memory.read] using h)

/-- Canonical lists with the same first address read alike after it if they do as a whole: below and at that
address both tails read as zero. -/
theorem Memory.read_tail_eq {k a : Nat} {v w : Byte} {m n : List Host.Cell}
    (hm : Memory.wfFrom (k + 1) m = true) (hn : Memory.wfFrom (k + 1) n = true)
    (h : Memory.read ((k, v) :: m) a = Memory.read ((k, w) :: n) a) : Memory.read m a = Memory.read n a := by
  by_cases ha : a = k
  · rw [Memory.read_of_lt hm (by omega), Memory.read_of_lt hn (by omega)]
  · simpa [Memory.read, ha] using h

theorem Memory.eq_of_read_eq {lo : Nat} {m n : List Host.Cell} (hm : Memory.wfFrom lo m = true)
    (hn : Memory.wfFrom lo n = true) (h : ∀ a < Config.memSize, Memory.read m a = Memory.read n a) : m = n := by
  induction m generalizing lo n with
  | nil =>
    cases n with
    | nil => rfl
    | cons c n =>
      obtain ⟨k, v⟩ := c
      obtain ⟨-, hk, -, -⟩ := Memory.wfFrom_cons.mp hn
      have := Memory.le_head_of_read_eq (lo' := k + 1) (n := []) hn rfl (h k hk).symm
      omega
  | cons c m ih =>
    obtain ⟨k, v⟩ := c
    obtain ⟨-, hk, hv, hm'⟩ := Memory.wfFrom_cons.mp hm
    cases n with
    | nil =>
      have := Memory.le_head_of_read_eq (lo' := k + 1) (n := []) hm rfl (h k hk)
      omega
    | cons c n =>
      obtain ⟨k', w⟩ := c
      obtain ⟨-, hk', hw, hn'⟩ := Memory.wfFrom_cons.mp hn
      have hle : k' ≤ k := Memory.le_head_of_read_eq hm
        (Memory.wfFrom_cons.mpr ⟨le_rfl, hk', hw, hn'⟩) (h k hk)
      have hge : k ≤ k' := Memory.le_head_of_read_eq hn
        (Memory.wfFrom_cons.mpr ⟨le_rfl, hk, hv, hm'⟩) (h k' hk').symm
      obtain rfl : k' = k := le_antisymm hle hge
      obtain rfl : v = w := by simpa [Memory.read] using h k' hk
      rw [ih hm' hn' fun a ha => Memory.read_tail_eq hm' hn' (h a ha)]

/-- Settles O9, by induction on the two lists from their lower bound. -/
theorem canonicalMemoriesReadingAlikeAreEqual : Obligations.CanonicalMemoriesReadingAlikeAreEqual := by
  intro m n hm hn h
  refine Memory.eq_of_read_eq hm hn fun a ha => ?_
  have hread := h (BitVec.ofNat 16 a)
  rwa [BitVec.toNat_ofNat, Nat.mod_eq_of_lt (b := 2 ^ 16) ha] at hread

/-! ## The frame of every instruction -/

/-- Settles O40: one frame lemma per clause. -/
theorem nothingElseChanges : Obligations.NothingElseChanges := fun _ _ _ h =>
  ⟨fun _ => exec_getReg h, exec_sp h, exec_inert_flags h, exec_zn_of_not_load h, exec_status h,
    exec_load_readByte h, fun _ _ hf hres _ => exec_store_readByte h hf hres,
    fun hi _ => exec_jsr_readByte h hi⟩

/-! ## The flags -/

theorem zeroOf_iff (v : Byte) : zeroOf v = true ↔ v = 0x00 := by simp [zeroOf]

/-- Bit 7 is set exactly in the upper half of the byte's range. -/
theorem negativeOf_iff (v : Byte) : negativeOf v = true ↔ 128 ≤ v.toNat := by
  have h : negativeOf v = v.msb := by simp [negativeOf, BitVec.msb_eq_getLsbD_last]
  simp [h, BitVec.msb_eq_decide]

/-- A load leaves `Z` and `N` as its target register says (R90). -/
theorem exec_load_zn {i : Instr} {s t : State} (h : exec i s = .next t) {r : Reg} (hi : i.operation = .load)
    (hr : i.register = some r) :
    (t.flagZ = true ↔ t.getReg r = 0x00) ∧ (t.flagN = true ↔ 128 ≤ (t.getReg r).toNat) := by
  rcases exec_next h with ⟨q, v, n, -, hq, -, rfl⟩ | ⟨q, addr, n, ho, -, -, -⟩ | ⟨w, rfl, -⟩
  · obtain rfl : q = r := Option.some.inj (hq.symm.trans hr)
    simp [zeroOf_iff, negativeOf_iff]
  · simp [ho] at hi
  · cases hi

/-- How a step ends, with the flags of its next state cleared: what two runs that differ in flags only share. -/
def flagless : Result → Result
  | .next t => .next t.noFlags
  | .fault f => .fault f
  | .refused r => .refused r

@[simp] theorem State.noFlags_pc (s : State) : s.noFlags.pc = s.pc := rfl

@[simp] theorem State.readByte_noFlags (s : State) (addr : Word) : s.noFlags.readByte addr = s.readByte addr := rfl

@[simp] theorem State.getReg_noFlags (s : State) (r : Reg) : s.noFlags.getReg r = s.getReg r := by
  cases r <;> rfl

@[simp] theorem resolved_noFlags (form : AddrForm) (s : State) : resolved form s.noFlags = resolved form s := by
  cases form <;> rfl

/-- The end of a load, with the flags cleared, does not see the flags it started with. -/
theorem State.noFlags_loaded (s : State) (p : Word) (r : Reg) (v : Byte) (n : Nat) :
    (((s.noFlags.setPc p).loadReg r v).retire n).noFlags = (((s.setPc p).loadReg r v).retire n).noFlags := by
  cases r <;> rfl

theorem flagless_loadFrom (r : Reg) (form : AddrForm) (s : State) :
    flagless (loadFrom r form s.noFlags) = flagless (loadFrom r form s) := by
  simp only [loadFrom_eq, State.noFlags_pc, resolved_noFlags, State.readByte_noFlags]
  split
  · rfl
  · exact congrArg Host.Outcome.next (s.noFlags_loaded _ r _ _)

theorem flagless_storeTo (r : Reg) (form : AddrForm) (s : State) :
    flagless (storeTo r form s.noFlags) = flagless (storeTo r form s) := by
  simp only [storeTo_eq, State.noFlags_pc, resolved_noFlags, State.getReg_noFlags]
  split <;> rfl

theorem flagless_execJsr (w : Word) (s : State) : flagless (execJsr w s.noFlags) = flagless (execJsr w s) := by
  rw [execJsr_eq, execJsr_eq, State.noFlags_pc]
  by_cases h : s.pc = 0xFFFE
  · simp only [if_pos h]
  · simp only [if_neg h]
    rfl

/-- An instruction run from a state with its flags cleared ends as from the state itself, up to flags (R16). -/
theorem flagless_exec (i : Instr) (s : State) : flagless (exec i s.noFlags) = flagless (exec i s) := by
  rcases exec_shape i with ⟨r, d, -, -, -, hx⟩ | ⟨r, form, -, -, -, hx⟩ | ⟨r, form, -, -, -, hx⟩ | ⟨w, rfl⟩
  · rw [hx, hx, loadImmediate_eq, loadImmediate_eq]
    exact congrArg Host.Outcome.next (s.noFlags_loaded _ r d 2)
  · rw [hx, hx, flagless_loadFrom]
  · rw [hx, hx, flagless_storeTo]
  · exact flagless_execJsr w s

/-- No instruction depends on a flag: two states that differ in flags only end alike. -/
theorem flagless_exec_congr (i : Instr) {s s' : State} (h : s.noFlags = s'.noFlags) :
    flagless (exec i s) = flagless (exec i s') := by
  rw [← flagless_exec i s, h, flagless_exec i s']

theorem flagless_eq_next {o : Result} {u : State} :
    flagless o = .next u ↔ ∃ t, o = .next t ∧ t.noFlags = u := by cases o <;> simp [flagless]

theorem flagless_eq_fault {o : Result} {f : Fault} : flagless o = .fault f ↔ o = .fault f := by
  cases o <;> simp [flagless]

theorem flagless_eq_refused {o : Result} {r : Refusal} : flagless o = .refused r ↔ o = .refused r := by
  cases o <;> simp [flagless]

/-- Outcomes that are alike up to flags: the same kind, and the same answer. -/
theorem alike_of_flagless_eq {o o' : Result} (h : flagless o = flagless o') :
    (∀ t, o = .next t → ∃ t', o' = .next t' ∧ t.noFlags = t'.noFlags) ∧
    (∀ f, o = .fault f → o' = .fault f) ∧ (∀ r, o = .refused r → o' = .refused r) := by
  refine ⟨fun t ht => ?_, fun f hf => ?_, fun r hr => ?_⟩
  · obtain ⟨t', ht', hu⟩ := flagless_eq_next.mp (h.symm.trans (flagless_eq_next.mpr ⟨t, ht, rfl⟩))
    exact ⟨t', ht', hu.symm⟩
  · exact flagless_eq_fault.mp (h.symm.trans (flagless_eq_fault.mpr hf))
  · exact flagless_eq_refused.mp (h.symm.trans (flagless_eq_refused.mpr hr))

theorem State.getFlag_reset (f : Flag) : State.reset.getFlag f = false := by cases f <;> rfl

/-- Settles O42. -/
theorem onlyLoadsWriteFlagsAndNothingReadsThem : Obligations.OnlyLoadsWriteFlagsAndNothingReadsThem := by
  refine ⟨fun i s t h => ⟨fun r => exec_load_zn h, exec_zn_of_not_load h, exec_inert_flags h⟩,
    fun i s s' h => alike_of_flagless_eq (flagless_exec_congr i h),
    fun s f => State.getFlag_reset f, fun s f b hs => ?_⟩
  simp [operate, access_ready _ _ hs]

/-! ## Direct access reads back -/

theorem State.setReg_frame (s : State) (r : Reg) (v : Byte) :
    s.setReg r v = { s with a := (s.setReg r v).a, x := (s.setReg r v).x, y := (s.setReg r v).y } := by
  cases r <;> rfl

theorem State.setFlag_frame (s : State) (f : Flag) (b : Bool) :
    s.setFlag f b =
      { s with flagC := (s.setFlag f b).flagC, flagZ := (s.setFlag f b).flagZ, flagI := (s.setFlag f b).flagI,
               flagD := (s.setFlag f b).flagD, flagB := (s.setFlag f b).flagB, flagV := (s.setFlag f b).flagV,
               flagN := (s.setFlag f b).flagN } := by
  cases f <;> rfl

theorem operate_readReg_ready {s : State} (r : Reg) (h : s.status = .ready) :
    operate (.readReg r) s = (.byte (s.getReg r), s) := access_ready _ _ h

theorem operate_readFlag_ready {s : State} (f : Flag) (h : s.status = .ready) :
    operate (.readFlag f) s = (.bit (s.getFlag f), s) := access_ready _ _ h

theorem operate_readMem_ready {s : State} (addr : Word) (h : s.status = .ready) :
    operate (.readMem addr) s = (.byte (s.readByte addr), s) := access_ready _ _ h

/-- Settles O54: a write in `READY` is the state's update, and each read after it looks at the updated state. -/
theorem directAccessReadsBackWhatWasWritten : Obligations.DirectAccessReadsBackWhatWasWritten := by
  intro s hs
  refine ⟨fun v => ?pc, fun v => ?sp, fun r v => ?reg, fun f b => ?flag, fun addr v => ?mem⟩
  case pc =>
    have hw : operate (.writePc v) s = (.done, s.setPc v) := access_ready _ _ hs
    exact ⟨hw, hw ▸ access_ready (s := s.setPc v) _ _ hs⟩
  case sp =>
    have hw : operate (.writeSp v) s = (.done, s.setSp v) := access_ready _ _ hs
    exact ⟨hw, hw ▸ access_ready (s := s.setSp v) _ _ hs⟩
  case reg =>
    have ht : (s.setReg r v).status = .ready := by rw [State.setReg_status, hs]
    refine ⟨s.setReg r v, access_ready _ _ hs, s.setReg_frame r v, ?_, fun q hq => ?_⟩
    · rw [operate_readReg_ready r ht, State.getReg_setReg_same]
    · rw [operate_readReg_ready q ht, State.getReg_setReg_other s v hq]
  case flag =>
    have ht : (s.setFlag f b).status = .ready := by rw [State.setFlag_status, hs]
    refine ⟨s.setFlag f b, access_ready _ _ hs, s.setFlag_frame f b, ?_, fun g hg => ?_⟩
    · rw [operate_readFlag_ready f ht, State.getFlag_setFlag_same]
    · rw [operate_readFlag_ready g ht, State.getFlag_setFlag_other s b hg]
  case mem =>
    have ht : (s.writeByte addr v).status = .ready := hs
    refine ⟨s.writeByte addr v, access_ready _ _ hs, rfl, fun hwf => ?_, fun b hb => ?_⟩
    · rw [operate_readMem_ready addr ht, State.readByte_writeByte_same addr v hwf]
    · rw [operate_readMem_ready b ht, State.readByte_writeByte_other s v hb]

end Sys2Proof.Machine

/-! PROOFS. The statements about memory (spec/20_memory.md): the values of a word's two bytes, then the word
accessors of the bus on them. -/

namespace Sys2Proof.Machine

/-! ## The values of a word and its bytes -/

theorem wordOf_toNat (lo hi : Byte) : (wordOf lo hi).toNat = lo.toNat + 256 * hi.toNat := by
  have happend : (wordOf lo hi).toNat = hi.toNat * 2 ^ 8 + lo.toNat := by
    rw [wordOf, BitVec.toNat_append, ← Nat.shiftLeft_add_eq_or_of_lt lo.isLt, Nat.shiftLeft_eq]
  omega

theorem loByte_toNat (w : Word) : (loByte w).toNat = w.toNat % 256 := BitVec.toNat_setWidth 8 w

/-- The high byte is what the word's value leaves over its low byte (R34). -/
theorem hiByte_toNat (w : Word) : (hiByte w).toNat = w.toNat / 256 := by
  have h := wordOf_toNat (loByte w) (hiByte w)
  rw [wordOf_loByte_hiByte, loByte_toNat] at h
  omega

/-! ## The two bytes of a word write -/

/-- An address and the next one differ, also where the next one wraps to zero. -/
theorem addr_ne_add_one (addr : Word) : addr ≠ addr + 1 := by bv_omega

/-- The state after a word write below `0xFFFF`: the low byte at `addr`, the high byte behind it (R34). -/
def State.wroteWord (s : State) (addr v : Word) : State :=
  (s.writeByte addr (loByte v)).writeByte (addr + 1) (hiByte v)

theorem State.writeWord_eq_wroteWord (s : State) {addr : Word} (v : Word) (h : addr ≠ Config.lastAddress) :
    s.writeWord addr v = .ok (s.wroteWord addr v) := s.writeWord_ok v h

theorem State.readByte_wroteWord_low {s : State} (addr v : Word) (h : Memory.wf s.mem = true) :
    (s.wroteWord addr v).readByte addr = loByte v := by
  rw [State.wroteWord, State.readByte_writeByte_other _ _ (addr_ne_add_one addr),
    State.readByte_writeByte_same addr _ h]

theorem State.readByte_wroteWord_high {s : State} (addr v : Word) (h : Memory.wf s.mem = true) :
    (s.wroteWord addr v).readByte (addr + 1) = hiByte v :=
  State.readByte_writeByte_same _ _ (State.writeByte_wf addr (loByte v) h)

theorem State.readByte_wroteWord_other (s : State) {addr b : Word} (v : Word) (hlo : b ≠ addr)
    (hhi : b ≠ addr + 1) : (s.wroteWord addr v).readByte b = s.readByte b := by
  rw [State.wroteWord, State.readByte_writeByte_other _ _ hhi, State.readByte_writeByte_other _ _ hlo]

/-- A word written to canonical memory reads back whole (R32, R34). -/
theorem State.readWord_wroteWord {s : State} {addr : Word} (v : Word) (hwf : Memory.wf s.mem = true)
    (h : addr ≠ Config.lastAddress) : (s.wroteWord addr v).readWord addr = .ok v := by
  rw [State.readWord_ok _ h, State.readByte_wroteWord_low addr v hwf,
    State.readByte_wroteWord_high addr v hwf, wordOf_loByte_hiByte]

/-! ## The statements -/

/-- Settles O5, by the two read rules of a byte write. -/
theorem byteWriteChangesOneByte : Obligations.ByteWriteChangesOneByte := fun s addr v =>
  ⟨⟨State.readByte_writeByte_same addr v, fun _ => s.readByte_writeByte_other v⟩, rfl⟩

/-- Settles O6, by the value of the word joined from the two bytes. -/
theorem wordReadIsLittleEndian : Obligations.WordReadIsLittleEndian := fun s _ h =>
  ⟨_, s.readWord_ok h, wordOf_toNat _ _⟩

/-- Settles O7, at the state `State.wroteWord`: the values of the bytes written, the read-back and the frame. -/
theorem wordWriteIsLittleEndian : Obligations.WordWriteIsLittleEndian := by
  intro s addr v h
  refine ⟨s.wroteWord addr v, s.writeWord_eq_wroteWord v h, rfl, fun hwf => ⟨?low, ?high, ?back⟩,
    fun b hlo hhi => s.readByte_wroteWord_other v hlo hhi⟩
  case low => rw [State.readByte_wroteWord_low addr v hwf, loByte_toNat]
  case high => rw [State.readByte_wroteWord_high addr v hwf, hiByte_toNat]
  case back => exact State.readWord_wroteWord v hwf h

/-- Settles O8, at `Config.lastAddress` (D3). -/
theorem wordAccessAtTopIsFatal : Obligations.WordAccessAtTopIsFatal := fun s v =>
  ⟨s.readWord_last, s.writeWord_last v⟩

end Sys2Proof.Machine

/-! PROOFS. The statements about the encoding (spec/30_encoding.md): the byte of an instruction finds its row, its
operand bytes assemble it again, and what it means that the decoder answers an instruction; then the
statements, each from these. -/

namespace Sys2Proof

/-! ## The row of an instruction -/

/-- Every instruction is a row of the Opcode Table (R55, R58). -/
theorem tableRow : ∀ i : Instr, Laws.TableRow.Statement i
  | .ldaImm d => Laws.TableRow.ldaImm d
  | .ldaZp d => Laws.TableRow.ldaZp d
  | .ldaZpX d => Laws.TableRow.ldaZpX d
  | .ldaAbs w => Laws.TableRow.ldaAbs w
  | .ldaAbsX w => Laws.TableRow.ldaAbsX w
  | .ldaIndX d => Laws.TableRow.ldaIndX d
  | .ldaIndY d => Laws.TableRow.ldaIndY d
  | .ldxImm d => Laws.TableRow.ldxImm d
  | .ldxZp d => Laws.TableRow.ldxZp d
  | .ldxZpY d => Laws.TableRow.ldxZpY d
  | .ldxAbs w => Laws.TableRow.ldxAbs w
  | .ldxAbsY w => Laws.TableRow.ldxAbsY w
  | .ldyImm d => Laws.TableRow.ldyImm d
  | .ldyZp d => Laws.TableRow.ldyZp d
  | .ldyZpX d => Laws.TableRow.ldyZpX d
  | .ldyAbs w => Laws.TableRow.ldyAbs w
  | .ldyAbsX w => Laws.TableRow.ldyAbsX w
  | .staZp d => Laws.TableRow.staZp d
  | .staZpX d => Laws.TableRow.staZpX d
  | .staAbs w => Laws.TableRow.staAbs w
  | .staAbsX w => Laws.TableRow.staAbsX w
  | .staIndX d => Laws.TableRow.staIndX d
  | .staIndY d => Laws.TableRow.staIndY d
  | .stxZp d => Laws.TableRow.stxZp d
  | .stxZpY d => Laws.TableRow.stxZpY d
  | .stxAbs w => Laws.TableRow.stxAbs w
  | .styZp d => Laws.TableRow.styZp d
  | .styZpX d => Laws.TableRow.styZpX d
  | .styAbs w => Laws.TableRow.styAbs w
  | .jsr w => Laws.TableRow.jsr w

/-- The row that names an instruction: its opcode byte and its triple (R51, R55). -/
def Instr.row (i : Instr) : OpcodeEntry := ⟨i.opcode, i.operation, i.mode, i.register⟩

theorem Instr.row_mem_opcodeTable (i : Instr) : i.row ∈ opcodeTable := (tableRow i).2.1

theorem encode_length (i : Instr) : (encode i).length = i.length := (tableRow i).2.2

theorem operandBytes_length (i : Instr) : i.operandBytes.length = i.length - 1 := by
  rw [← encode_length i, encode, List.length_cons, Nat.add_sub_cancel]

/-- A byte is found in a table exactly when some row has it. -/
theorem lookup_isSome_iff {t : List OpcodeEntry} {op : Byte} :
    (lookup t op).isSome ↔ op ∈ t.map OpcodeEntry.opcode := by
  simp [lookup, List.find?_isSome]

theorem opcodeTable_nodup : (opcodeTable.map OpcodeEntry.opcode).Nodup := by
  have hwf := opcodeTable_wellFormed
  rw [tableWellFormed, Bool.and_eq_true] at hwf
  exact of_decide_eq_true hwf.2

/-- A row of the Opcode Table is the one its byte finds: no byte has two rows (R51). -/
theorem lookup_opcode_of_mem {e : OpcodeEntry} (h : e ∈ opcodeTable) : lookup opcodeTable e.opcode = some e := by
  obtain ⟨e', he'⟩ := Option.isSome_iff_exists.mp (lookup_isSome_iff.mpr (List.mem_map_of_mem h))
  obtain ⟨hmem, hop⟩ := lookup_some he'
  rwa [List.inj_on_of_nodup_map opcodeTable_nodup hmem h hop] at he'

/-! ## The decoder -/

/-- An instruction's own operand bytes, whatever follows them, assemble it again (R50, R52, R53). -/
theorem assemble_operandBytes (i : Instr) (rest : List Byte) :
    assemble i.operation i.mode i.register
      (wordOf ((i.operandBytes ++ rest).getD 0 0) ((i.operandBytes ++ rest).getD 1 0)) = some i := by
  cases i <;> simp [assemble, Instr.operation, Instr.mode, Instr.register, Instr.operandBytes]

/-- An instruction that the decoder answers is the one of its byte's row. -/
theorem decodeWindow_ok {b0 b1 b2 : Byte} {i : Instr} (h : decodeWindow b0 b1 b2 = .ok i) :
    ∃ e, lookup opcodeTable b0 = some e ∧ Assembles e (wordOf b1 b2) i := by
  cases he : lookup opcodeTable b0 with
  | none => simp [decodeWindow_unknown b1 b2 he] at h
  | some e =>
    obtain ⟨i', hi', hd⟩ := decodeWindow_known b1 b2 he
    cases hd.symm.trans h
    exact ⟨e, rfl, hi'⟩

theorem decodeWindow_of_assemble {b0 b1 b2 : Byte} {e : OpcodeEntry} {i : Instr}
    (h : lookup opcodeTable b0 = some e)
    (hi : assemble e.operation e.mode e.register (wordOf b1 b2) = some i) : decodeWindow b0 b1 b2 = .ok i := by
  simp only [decodeWindow, h, row_wellFormed (lookup_some h).1, if_true, hi]

/-- When a stream decodes to an instruction and a rest: its first bytes decode, they are all there, and the rest
is what follows them. -/
theorem decode_cons_eq_ok_iff {op : Byte} {tail rest : List Byte} {i : Instr} :
    decode (op :: tail) = .ok (i, rest) ↔
      decodeWindow op (tail.getD 0 0) (tail.getD 1 0) = .ok i ∧ i.length ≤ tail.length + 1 ∧
        tail.drop (i.length - 1) = rest := by
  rw [decode]
  cases decodeWindow op (tail.getD 0 0) (tail.getD 1 0) with
  | error e => simp
  | ok j =>
    dsimp only
    by_cases hlen : j.length ≤ tail.length + 1
    · rw [if_pos hlen]
      constructor
      · rintro ⟨⟩
        exact ⟨rfl, hlen, rfl⟩
      · rintro ⟨⟨⟩, -, rfl⟩
        rfl
    · rw [if_neg hlen]
      constructor
      · rintro ⟨⟩
      · rintro ⟨⟨⟩, hle, -⟩
        exact absurd hle hlen

theorem decode_encode (i : Instr) (rest : List Byte) : decode (encode i ++ rest) = .ok (i, rest) := by
  rw [encode, List.cons_append]
  refine decode_cons_eq_ok_iff.mpr ⟨?window, ?length, ?rest⟩
  case window =>
    exact decodeWindow_of_assemble (lookup_opcode_of_mem i.row_mem_opcodeTable) (assemble_operandBytes i rest)
  case length =>
    have h := operandBytes_length i
    rw [List.length_append]
    omega
  case rest => rw [← operandBytes_length, List.drop_left]

/-- The operand bytes of an instruction assembled from a row and the first two bytes of a stream that holds the
whole instruction are the stream's first bytes (R50, R54). -/
theorem Assembles.operandBytes_eq_take {e : OpcodeEntry} {tail : List Byte} {i : Instr}
    (hi : Assembles e (wordOf (tail.getD 0 0) (tail.getD 1 0)) i) (hlen : i.length ≤ tail.length + 1) :
    i.operandBytes = tail.take (i.length - 1) := by
  have hop := hi.operand
  rw [Instr.length, hi.mode] at hlen ⊢
  generalize e.mode.format = f at hop hlen ⊢
  cases f with
  | opD8 =>
    obtain _ | ⟨b1, tail⟩ := tail
    · simp [Format.length] at hlen
    · simpa [Format.length] using hop
  | opA16 =>
    obtain _ | ⟨b1, _ | ⟨b2, tail⟩⟩ := tail
    · simp [Format.length] at hlen
    · simp [Format.length] at hlen
    · simpa [Format.length] using hop

/-- A stream that decodes begins with the encoding of the instruction (R50, R51). -/
theorem eq_encode_append_of_decode {bytes rest : List Byte} {i : Instr} (h : decode bytes = .ok (i, rest)) :
    bytes = encode i ++ rest := by
  cases bytes with
  | nil => cases h
  | cons op tail =>
    obtain ⟨hwin, hlen, rfl⟩ := decode_cons_eq_ok_iff.mp h
    obtain ⟨e, he, hi⟩ := decodeWindow_ok hwin
    have hop : i.opcode = op := hi.opcode.trans (lookup_some he).2
    rw [encode, hop, hi.operandBytes_eq_take hlen, List.cons_append, List.take_append_drop]

/-! ## The statements about the decoder -/

/-- Settles O12: the instruction's byte finds its row, and its operand bytes assemble it again. -/
theorem decodeOfEncodeIsTheInstruction : Obligations.DecodeOfEncodeIsTheInstruction := decode_encode

/-- Settles O13: the row's byte is the first byte, the assembled operand bytes are the ones behind it. -/
theorem encodeOfDecodeIsTheBytes : Obligations.EncodeOfDecodeIsTheBytes :=
  fun _ _ _ => eq_encode_append_of_decode

/-- Settles O14: the words are encodings. -/
theorem sampleWordsDecode : Obligations.SampleWordsDecode :=
  ⟨decode_encode (.ldxImm 0x10) [], decode_encode (.ldaZpX 0x32) [], decode_encode (.ldxAbsY 0x2000) [],
    decode_encode (.ldaIndY 0x20) [], decode_encode (.staAbs 0x0606) [], decode_encode (.jsr 0xFF10) []⟩

/-- The opcode bytes of the table, in rising order (R55). -/
theorem opcodeTable_bytes : (opcodeTable.map OpcodeEntry.opcode).Perm
    [0x20, 0x81, 0x84, 0x85, 0x86, 0x8C, 0x8D, 0x8E, 0x91, 0x94, 0x95, 0x96, 0x9D, 0xA0, 0xA1, 0xA2,
      0xA4, 0xA5, 0xA6, 0xA9, 0xAC, 0xAD, 0xAE, 0xB1, 0xB4, 0xB5, 0xB6, 0xBC, 0xBD, 0xBE] := by decide

/-- Settles O15: the listed bytes are those of the table's rows, and the look-up finds these only. -/
theorem exactlyThirtyOpcodeBytes : Obligations.ExactlyThirtyOpcodeBytes := by
  intro op b1 b2
  rw [← opcodeTable_bytes.mem_iff, ← lookup_isSome_iff]
  constructor
  · intro h
    obtain ⟨e, he⟩ := Option.isSome_iff_exists.mp h
    obtain ⟨i, -, hi⟩ := decodeWindow_known b1 b2 he
    exact ⟨i, hi⟩
  · intro h
    exact decodeWindow_unknown b1 b2 (Option.not_isSome_iff_eq_none.mp h)

namespace Machine

/-! ## The statements about the step -/

/-- An illegal row of any table is fatal before its operand is looked at (R172, D19). -/
theorem dispatchStep_illegal {t : List OpcodeEntry} {e : OpcodeEntry} {s : State}
    (h : lookup t (s.readByte s.pc) = some e) (hill : e.wellFormed = false) :
    dispatchStep t s = .fault (.illegalCombination (s.readByte s.pc)) := by
  simp [dispatchStep, State.fetchByte, h, hill]

/-- No step raises `IllegalCombination`: it is no possible fatal condition (R58). -/
theorem step_ne_illegalCombination (s : State) (op : Byte) : step s ≠ .fault (.illegalCombination op) := by
  intro h
  have hposs := step_fault_possible h
  simp [Fault.possible] at hposs

/-- Settles O16. -/
theorem illegalCombinationIsUnreachable : Obligations.IllegalCombinationIsUnreachable :=
  ⟨fun _ => row_wellFormed, step_ne_illegalCombination, fun _ _ _ => dispatchStep_illegal⟩

/-- An instruction but `JSR` leaves `pc` at the byte behind it (R54). -/
theorem exec_pc {i : Instr} {s t : State} (h : exec i s = .next t) (hi : i.operation ≠ .jsr) :
    t.pc = s.pc + BitVec.ofNat 16 i.length := by
  rcases exec_next h with ⟨q, v, n, -, -, -, rfl⟩ | ⟨q, addr, n, -, -, -, rfl⟩ | ⟨w, rfl, -⟩
  · simp
  · simp
  · exact absurd rfl hi

/-- Settles O41: the length mode by mode, the encoding's from the instruction's row, `pc` from its frame lemma. -/
theorem pcAdvancesByTheModesLength : Obligations.PcAdvancesByTheModesLength := by
  refine ⟨fun i => ⟨?_, encode_length i⟩, fun i s t hi h => ?_⟩
  · rw [Instr.length]
    cases i.mode <;> rfl
  · rw [exec_pc h hi, BitVec.toNat_add, BitVec.toNat_ofNat, Nat.add_mod_mod]

/-- A step from `READY` whose window at `pc` decodes runs the decoded instruction (R61, R150). -/
theorem step_of_decodeWindow {s : State} {i : Instr} (hs : s.status = .ready)
    (h : decodeWindow (s.readByte s.pc) (s.readByte (s.pc + 1)) (s.readByte (s.pc + 2)) = .ok i) :
    step s = exec i s := by
  simp only [step, hs, fetch, h]

/-- Settles O44: decoding the three bytes as a stream is decoding them as the window at `pc`. -/
theorem stepRunsTheDecodedInstruction : Obligations.StepRunsTheDecodedInstruction := fun _ _ _ hs h =>
  step_of_decodeWindow hs (decode_cons_eq_ok_iff.mp h).1

end Machine

end Sys2Proof

/-! PROOFS. The statements about addressing (spec/40_addressing.md): the value of an indexed address and its page
crossing, what the operand fetches answer, what a store that can fetch its operand does; then the
statements, each from these. -/

namespace Sys2Proof.Machine

/-! ## Indexed addresses -/

/-- An index added in 8 bits stays in the zero page (R75, R76). -/
theorem zext16_add_toNat (d index : Byte) :
    (zext16 (d + index)).toNat = (d.toNat + index.toNat) % 256 := by
  rw [zext16_toNat, BitVec.toNat_add]

/-- An index added to a word wraps at the top of memory (R78, R79, R81). -/
theorem add_zext16_toNat (base : Word) (index : Byte) :
    (base + zext16 index).toNat = (base.toNat + index.toNat) % 65536 := by
  rw [BitVec.toNat_add, zext16_toNat]

theorem pageCross_eq (addr : Word) (index : Byte) :
    pageCross addr index = decide (addr.toNat % 256 < index.toNat) := by
  simp only [pageCross, BitVec.lt_def, loByte_toNat]

theorem indexed_eq (base : Word) (index : Byte) :
    indexed base index =
      ⟨base + zext16 index, decide ((base + zext16 index).toNat % 256 < index.toNat)⟩ := by
  rw [indexed, pageCross_eq]

/-- The test is the carry out of the low byte (R82). -/
theorem pageCross_add_zext16_iff (base : Word) (index : Byte) :
    pageCross (base + zext16 index) index = true ↔ 256 ≤ base.toNat % 256 + index.toNat := by
  rw [pageCross_eq, decide_eq_true_iff, add_zext16_toNat]
  have := index.isLt
  omega

/-- That carry is what changes the high byte, also where the sum wraps (R82). -/
theorem hiByte_add_zext16_ne_iff (base : Word) (index : Byte) :
    hiByte (base + zext16 index) ≠ hiByte base ↔ 256 ≤ base.toNat % 256 + index.toNat := by
  rw [ne_eq, ← BitVec.toNat_inj, hiByte_toNat, hiByte_toNat, add_zext16_toNat]
  have := base.isLt
  have := index.isLt
  omega

theorem pageCross_zero (addr : Word) : pageCross addr 0 = false := by simp [pageCross_eq]

/-! ## Operand fetches -/

theorem State.fetchWord_ok (s : State) (h : s.pc ≠ Config.lastAddress) :
    s.fetchWord = .ok (wordOf (s.readByte s.pc) (s.readByte (s.pc + 1)), s.setPc (s.pc + 2)) := by
  simp only [State.fetchWord, s.readWord_ok h]

theorem State.fetchWord_last (s : State) (h : s.pc = Config.lastAddress) :
    s.fetchWord = .error (.wordAccessOutOfRange Config.lastAddress) := by
  simp only [State.fetchWord, h, s.readWord_last]

theorem fetchA16_ok (f : Word → Operand) (s : State) (h : s.pc ≠ Config.lastAddress) :
    fetchA16 f s = .ok (f (wordOf (s.readByte s.pc) (s.readByte (s.pc + 1))), s.setPc (s.pc + 2)) := by
  simp only [fetchA16, s.fetchWord_ok h]

/-! ## Stores whose operand can be fetched -/

/-- Such a store completes: the register's byte at the resolved address, `pc` and the cost, nothing else (R120). -/
theorem storeTo_completes {r : Reg} {form : AddrForm} {s : State}
    (h : ¬ (form.mode.format = .opA16 ∧ s.pc = 0xFFFE)) :
    ∃ t, storeTo r form s = .next t ∧ WroteByte s t (resolved form s).addr (s.getReg r) ∧
      t = { s with pc := s.pc + BitVec.ofNat 16 form.mode.format.length, mem := t.mem,
                   cycles := storeCycles form } :=
  ⟨_, (storeTo_eq r form s).trans (if_neg h),
    ⟨State.readByte_writeByte_same _ _, fun _ => s.readByte_writeByte_other _⟩, rfl⟩

/-- The table has no row for either pair: each row assembles to an instruction, and these do not (D2). -/
theorem opcodeTable_no_styAbsX_stxAbsY {e : OpcodeEntry} (he : e ∈ opcodeTable) :
    ¬ (e.operation = .store ∧ e.mode = .absoluteX ∧ e.register = some .y) ∧
      ¬ (e.operation = .store ∧ e.mode = .absoluteY ∧ e.register = some .x) := by
  obtain ⟨i, hi⟩ := row_assembles he 0
  have hasm := hi.assembled
  constructor <;>
  · rintro ⟨ho, hm, hr⟩
    rw [ho, hm, hr] at hasm
    cases hasm

/-! ## The statements -/

/-- Settles O21: both tests are the carry out of the low byte. -/
theorem pageCrossIsTheCarry : Obligations.PageCrossIsTheCarry := fun base index =>
  ⟨pageCross_add_zext16_iff base index,
    (pageCross_add_zext16_iff base index).trans (hiByte_add_zext16_ne_iff base index).symm,
    pageCross_zero base⟩

/-- Settles O10. -/
theorem fetchByteAdvancesPcByOne : Obligations.FetchByteAdvancesPcByOne := fun s =>
  ⟨rfl, rfl, BitVec.toNat_add s.pc 1⟩

/-- Settles O11, at `Config.lastAddress` and below it (D3, D6). -/
theorem fetchWordAdvancesPcByTwo : Obligations.FetchWordAdvancesPcByTwo := fun s =>
  ⟨fun h => ⟨_, _, s.fetchWord_ok h, rfl, BitVec.toNat_add s.pc 2, wordOf_toNat _ _⟩, s.fetchWord_last⟩

/-- Settles O17: each cell of the table by the definition of `legal`, `JSR` for every mode at once. -/
theorem legalityTable : Obligations.LegalityTable :=
  ⟨rfl, rfl, rfl, rfl, rfl, rfl, rfl, rfl, rfl, fun _ => rfl⟩

/-- Settles O18: the three operands and what the Resolver answers for them. -/
theorem zeroPageModesWrapInTheZeroPage : Obligations.ZeroPageModesWrapInTheZeroPage := by
  intro s d s1
  exact ⟨⟨.zeroPage d, _, rfl, resolve_eq _ s1, zext16_toNat d⟩,
    ⟨.zeroPageX d, _, rfl, resolve_eq _ s1, zext16_add_toNat d s.x⟩,
    ⟨.zeroPageY d, _, rfl, resolve_eq _ s1, zext16_add_toNat d s.y⟩⟩

/-- Settles O19: the word the operand fetch gives has the value `base`, and the Resolver indexes it. -/
theorem absoluteModesWrapAtTheTop : Obligations.AbsoluteModesWrapAtTheTop := by
  intro s h base s1
  have hbase : (wordOf (s.readByte s.pc) (s.readByte (s.pc + 1))).toNat = base := wordOf_toNat _ _
  refine ⟨⟨.absolute _, _, fetchA16_ok _ s h, resolve_eq _ s1, hbase⟩,
    ⟨.absoluteX _, _, fetchA16_ok _ s h, congrArg Except.ok (indexed_eq _ s.x), ?x⟩,
    ⟨.absoluteY _, _, fetchA16_ok _ s h, congrArg Except.ok (indexed_eq _ s.y), ?y⟩⟩
  case x => rw [add_zext16_toNat, hbase]
  case y => rw [add_zext16_toNat, hbase]

/-- Settles O20: a pointer in the zero page is always readable, and the word there is little-endian (D13). -/
theorem indirectModesReadAZeroPagePointer : Obligations.IndirectModesReadAZeroPagePointer := by
  intro s d s1
  refine ⟨⟨.indirectX d, _, zext16 (d + s.x), rfl, resolve_eq _ s1, zext16_add_toNat d s.x, wordOf_toNat _ _⟩,
    ⟨.indirectY d, _, zext16 d, rfl, (resolve_eq _ s1).trans (congrArg Except.ok (indexed_eq _ s.y)),
      zext16_toNat d, ?_⟩⟩
  rw [add_zext16_toNat, wordOf_toNat]
  rfl

/-- Settles O37: both pairs are the family's store at an operand that can be fetched. -/
theorem legalStorePairsWithoutAnOpcode : Obligations.LegalStorePairsWithoutAnOpcode := fun _ _ h =>
  ⟨rfl, rfl, fun _ => opcodeTable_no_styAbsX_stxAbsY, storeTo_completes (fun hf => h hf.2),
    storeTo_completes (fun hf => h hf.2)⟩

end Sys2Proof.Machine

/-! PROOFS. The statements about the loads (spec/41_load.md): the state a load leaves, when each of the two formats
reaches it, and the cost with the page crossing spelled out; then the statements, each from these. -/

namespace Sys2Proof.Machine

/-! ## The state after a load -/

/-- The state a load of `v` into `r` leaves, with `pc` at `p` and the cost `n` (R90). -/
def State.loaded (s : State) (p : Word) (r : Reg) (v : Byte) (n : Nat) : State :=
  ((s.setPc p).loadReg r v).retire n

theorem State.getReg_loaded_same (s : State) (p : Word) (r : Reg) (v : Byte) (n : Nat) :
    (s.loaded p r v n).getReg r = v := by simp [State.loaded]

theorem State.getReg_loaded_other (s : State) (p : Word) {r q : Reg} (v : Byte) (n : Nat) (h : q ≠ r) :
    (s.loaded p r v n).getReg q = s.getReg q := by
  simp [State.loaded, State.getReg_loadReg_other _ v h]

theorem State.loaded_flagZ (s : State) (p : Word) (r : Reg) (v : Byte) (n : Nat) :
    (s.loaded p r v n).flagZ = decide (v = 0) := State.loadReg_flagZ (s.setPc p) r v

/-- Bit 7 as the spec's mask picks it (R90). -/
theorem negativeOf_eq_mask (v : Byte) : negativeOf v = decide (v &&& 0x80 ≠ 0) := by
  have hmask : v &&& 0x80 = if v.getLsbD 7 then BitVec.twoPow 8 7 else 0 := BitVec.and_twoPow v 7
  rw [negativeOf, hmask]
  cases v.getLsbD 7 <;> rfl

theorem State.loaded_flagN (s : State) (p : Word) (r : Reg) (v : Byte) (n : Nat) :
    (s.loaded p r v n).flagN = decide (v &&& 0x80 ≠ 0) :=
  (State.loadReg_flagN (s.setPc p) r v).trans (negativeOf_eq_mask v)

/-- A load writes `pc`, the three registers, `Z`, `N` and the cost at most (R90). -/
theorem State.loaded_frame (s : State) (p : Word) (r : Reg) (v : Byte) (n : Nat) :
    s.loaded p r v n =
      { s with pc := (s.loaded p r v n).pc, a := (s.loaded p r v n).a, x := (s.loaded p r v n).x,
               y := (s.loaded p r v n).y, flagZ := (s.loaded p r v n).flagZ,
               flagN := (s.loaded p r v n).flagN, cycles := (s.loaded p r v n).cycles } := by
  cases r <;> rfl

/-- What R90 asks of the state `t` after a load of `v` into `r`, `pc` at `p`, at the cost `n`. -/
def LoadEffect (s t : State) (p : Word) (r : Reg) (v : Byte) (n : Nat) : Prop :=
  t.getReg r = v ∧ t.flagZ = decide (v = 0) ∧ t.flagN = decide (v &&& 0x80 ≠ 0) ∧ t.pc = p ∧ t.cycles = n ∧
    (∀ q, q ≠ r → t.getReg q = s.getReg q) ∧
    t = { s with pc := t.pc, a := t.a, x := t.x, y := t.y, flagZ := t.flagZ, flagN := t.flagN,
                 cycles := t.cycles }

theorem State.loaded_effect (s : State) (p : Word) (r : Reg) (v : Byte) (n : Nat) :
    LoadEffect s (s.loaded p r v n) p r v n :=
  ⟨s.getReg_loaded_same p r v n, s.loaded_flagZ p r v n, s.loaded_flagN p r v n,
    State.loadReg_pc (s.setPc p) r v, rfl, fun _ => s.getReg_loaded_other p v n, s.loaded_frame p r v n⟩

/-! ## Loads that complete, and loads that do not -/

theorem loadFrom_completes (r : Reg) {form : AddrForm} {s : State}
    (h : ¬ (form.mode.format = .opA16 ∧ s.pc = 0xFFFE)) :
    loadFrom r form s = .next (s.loaded (s.pc + BitVec.ofNat 16 form.mode.format.length) r
      (s.readByte (resolved form s).addr) (loadCycles form (resolved form s).crossed)) :=
  (loadFrom_eq r form s).trans (if_neg h)

theorem loadFrom_fatal (r : Reg) {form : AddrForm} {s : State} (hf : form.mode.format = .opA16)
    (hp : s.pc = 0xFFFE) : loadFrom r form s = .fault (.wordAccessOutOfRange Config.lastAddress) :=
  (loadFrom_eq r form s).trans (if_pos ⟨hf, hp⟩)

section Formats

variable (r : Reg) (form : AddrForm) {s : State} {v : Byte} {n : Nat}

/-- A two-byte load completes from every state. -/
theorem loadFrom_opD8 (hf : form.mode.format = .opD8) (hv : v = s.readByte (resolved form s).addr)
    (hn : loadCycles form (resolved form s).crossed = n) :
    loadFrom r form s = .next (s.loaded (s.pc + 2) r v n) := by
  rw [loadFrom_completes r (by simp [hf]), hf, hv, hn]
  rfl

/-- A three-byte load completes unless its operand word would be fetched at `0xFFFF` (D3). -/
theorem loadFrom_opA16 (hf : form.mode.format = .opA16) (hp : s.pc ≠ 0xFFFE)
    (hv : v = s.readByte (resolved form s).addr) (hn : loadCycles form (resolved form s).crossed = n) :
    loadFrom r form s = .next (s.loaded (s.pc + 3) r v n) := by
  rw [loadFrom_completes r (fun h => hp h.2), hf, hv, hn]
  rfl

end Formats

/-! ## The cost of a page crossing -/

/-- The crossing test in a cost, as the comparison R82 states. -/
theorem ite_pageCross (addr : Word) (index : Byte) (m n : Nat) :
    (if pageCross addr index then m else n) = if loByte addr < index then m else n := by
  simp [pageCross]

/-- One cycle more if crossed, as the carry bit added. -/
theorem ite_succ_eq_add_toNat (n : Nat) (c : Bool) : (if c then n + 1 else n) = n + c.toNat := by
  cases c <;> rfl

/-! ## The statements -/

/-- Settles O23: a load that completes leaves `State.loaded`, which has the effect R90 states. -/
theorem loadFamilyRule : Obligations.LoadFamilyRule :=
  ⟨fun r v s => ⟨_, loadImmediate_eq r v s, s.loaded_effect (s.pc + 2) r v 2⟩,
    fun r form s h => ⟨_, _, _, resolve_eq form s, rfl, loadFrom_completes r h, s.loaded_effect _ r _ _⟩,
    fun r _ _ => loadFrom_fatal r⟩

/-- Settles O22: three load costs grow with the crossing, every other entry is a constant. -/
theorem cycleCostTables : Obligations.CycleCostTables := fun _ _ c =>
  ⟨⟨rfl, rfl, rfl, rfl, rfl, ite_succ_eq_add_toNat 4 c, ite_succ_eq_add_toNat 4 c, rfl,
      ite_succ_eq_add_toNat 5 c⟩,
    rfl, rfl, rfl, rfl, rfl, rfl, rfl, rfl⟩

/-- Settles O24. -/
theorem loadImmediateCompletes : Obligations.LoadImmediateCompletes := fun d s =>
  ⟨loadImmediate_eq .a d s, loadImmediate_eq .x d s, loadImmediate_eq .y d s⟩

/-- Settles O25. -/
theorem loadZeroPageCompletes : Obligations.LoadZeroPageCompletes := by
  intro d v s hv
  have h := fun r => loadFrom_opD8 r (.zeroPage d) rfl hv rfl
  exact ⟨h .a, h .x, h .y⟩

/-- Settles O26. -/
theorem loadZeroPageIndexedCompletes : Obligations.LoadZeroPageIndexedCompletes := by
  intro d v w s hv hw
  have hx := fun r => loadFrom_opD8 r (.zeroPageX d) rfl hv rfl
  exact ⟨hx .a, loadFrom_opD8 .x (.zeroPageY d) rfl hw rfl, hx .y⟩

/-- Settles O27. -/
theorem loadAbsoluteCompletes : Obligations.LoadAbsoluteCompletes := by
  intro addr v s hp hv
  have h := fun r => loadFrom_opA16 r (.absolute addr) rfl hp hv rfl
  exact ⟨h .a, h .x, h .y⟩

/-- Settles O28: the resolved address is the indexed base, whose crossing test is the comparison in the cost. -/
theorem loadAbsoluteIndexedCompletes : Obligations.LoadAbsoluteIndexedCompletes := by
  intro base v w s hp hv hw
  have hx := fun r => loadFrom_opA16 r (.absoluteX base) rfl hp hv (ite_pageCross _ _ 5 4)
  exact ⟨hx .a, loadFrom_opA16 .x (.absoluteY base) rfl hp hw (ite_pageCross _ _ 5 4), hx .y⟩

/-- Settles O29: the Resolver's address is the word at the pointer (D13). -/
theorem ldaIndirectXCompletes : Obligations.LdaIndirectXCompletes := by
  rintro d v _ _ s rfl rfl hv
  exact loadFrom_opD8 .a (.indirectX d) rfl hv rfl

/-- Settles O30: the Resolver's address is the word at the pointer, indexed by `y` (D13). -/
theorem ldaIndirectYCompletes : Obligations.LdaIndirectYCompletes := by
  rintro d v _ _ s rfl rfl hv
  exact loadFrom_opD8 .a (.indirectY d) rfl hv (ite_pageCross _ _ 6 5)

end Sys2Proof.Machine

/-! PROOFS. The statements about the stores (spec/42_store.md): what a store of each of the two formats does, from
the rules of `storeTo` under addressing; then the statements, each from these. -/

namespace Sys2Proof.Machine

/-! ## Stores that complete, and stores that do not -/

theorem storeTo_fatal (r : Reg) {form : AddrForm} {s : State} (hf : form.mode.format = .opA16)
    (hp : s.pc = 0xFFFE) : storeTo r form s = .fault (.wordAccessOutOfRange Config.lastAddress) :=
  (storeTo_eq r form s).trans (if_pos ⟨hf, hp⟩)

section Formats

variable (r : Reg) (form : AddrForm) (s : State)

/-- A two-byte store completes from every state. -/
theorem storeTo_opD8 (hf : form.mode.format = .opD8) :
    ∃ t, storeTo r form s = .next t ∧ WroteByte s t (resolved form s).addr (s.getReg r) ∧
      t = { s with pc := s.pc + 2, mem := t.mem, cycles := storeCycles form } := by
  have h := storeTo_completes (r := r) (form := form) (s := s) (by simp [hf])
  rw [hf] at h
  exact h

/-- A three-byte store completes unless its operand word would be fetched at `0xFFFF` (D3). -/
theorem storeTo_opA16 (hf : form.mode.format = .opA16) (hp : s.pc ≠ 0xFFFE) :
    ∃ t, storeTo r form s = .next t ∧ WroteByte s t (resolved form s).addr (s.getReg r) ∧
      t = { s with pc := s.pc + 3, mem := t.mem, cycles := storeCycles form } := by
  have h := storeTo_completes (r := r) (form := form) (s := s) (fun hc => hp hc.2)
  rw [hf] at h
  exact h

end Formats

/-! ## The statements -/

/-- Settles O31: the Resolver answers for every form, so only the operand fetch decides whether a store completes. -/
theorem storeFamilyRule : Obligations.StoreFamilyRule := by
  refine ⟨fun r form s h => ?_, fun r _ _ => storeTo_fatal r⟩
  obtain ⟨t, hnext, hwrote, hframe⟩ := storeTo_completes (r := r) h
  exact ⟨t, _, resolve_eq form s, hnext, hwrote, hframe⟩

/-- Settles O32. -/
theorem storeZeroPageCompletes : Obligations.StoreZeroPageCompletes := by
  intro d s
  have h := fun r => storeTo_opD8 r (.zeroPage d) s rfl
  exact ⟨h .a, h .x, h .y⟩

/-- Settles O33. -/
theorem storeZeroPageIndexedCompletes : Obligations.StoreZeroPageIndexedCompletes := by
  intro d s
  have hx := fun r => storeTo_opD8 r (.zeroPageX d) s rfl
  exact ⟨hx .a, storeTo_opD8 .x (.zeroPageY d) s rfl, hx .y⟩

/-- Settles O34. -/
theorem storeAbsoluteCompletes : Obligations.StoreAbsoluteCompletes := by
  intro addr s hp
  have h := fun r => storeTo_opA16 r (.absolute addr) s rfl hp
  exact ⟨h .a, h .x, h .y⟩

/-- Settles O35: a store's cost does not depend on the page crossing (R121). -/
theorem staAbsoluteXCompletes : Obligations.StaAbsoluteXCompletes := fun base s =>
  storeTo_opA16 .a (.absoluteX base) s rfl

/-- Settles O36: the Resolver's address is the word at the pointer, indexed by `y` in the second mode (D13). -/
theorem staIndirectCompletes : Obligations.StaIndirectCompletes := by
  rintro d _ _ s rfl rfl
  exact ⟨storeTo_opD8 .a (.indirectX d) s rfl, storeTo_opD8 .a (.indirectY d) s rfl⟩

end Sys2Proof.Machine

/-! PROOFS. The statements about `JSR` (spec/43_jsr.md): a push is a word write just above the new `sp`, at an
address that is one more than the new `sp` in value; then the statements, each from these. -/

namespace Sys2Proof.Machine

/-! ## The push as a word write -/

/-- The address of the pushed word is not reduced modulo 2^8 (D5). -/
theorem pushAddress_toNat (sp : Byte) : (pushAddress sp).toNat = sp.toNat + 1 := by
  have hlt := zext16_lt sp
  rw [pushAddress_eq, ← zext16_toNat]
  bv_omega

/-- A push moves `sp` down by two and writes the word just above it (R141, D4). -/
theorem State.pushed_eq_wroteWord (s : State) (w : Word) :
    s.pushed w = (s.setSp (s.sp - 2)).wroteWord (zext16 (s.sp - 2) + 1) w := by
  rw [← pushAddress_eq]
  rfl

/-! ## The statements -/

/-- Settles O38: the state `execJsr_eq` gives is a push, whose bytes read as those of the word write it is. -/
theorem jsrCompletes : Obligations.JsrCompletes := by
  rintro target _ s hpc rfl
  refine ⟨((s.pushed (s.pc + 2)).setPc target).retire 6, (execJsr_eq target s).trans (if_neg hpc), rfl, ?_⟩
  simp only [State.readByte_retire, State.readByte_setPc, State.pushed_eq_wroteWord]
  exact ⟨fun hwf => ⟨State.readByte_wroteWord_low _ _ hwf, State.readByte_wroteWord_high _ _ hwf⟩,
    fun _ hlo hhi => State.readByte_wroteWord_other _ _ hlo hhi⟩

/-- Settles O39: one more than the new `sp`, which is `sp - 2` without a wrap for `sp` at least 2, and `0xFF`
and `0xFE` for `sp` 1 and 0. -/
theorem pushAddressesFromTheOldSp : Obligations.PushAddressesFromTheOldSp := by
  refine ⟨fun sp h => ?_, pushAddress_toNat _, pushAddress_toNat _⟩
  have hsub : (sp - 2).toNat = sp.toNat - 2 := BitVec.toNat_sub_of_le h
  rw [pushAddress_toNat, hsub]
  omega

end Sys2Proof.Machine

/-! PROOFS. The statements about the step and the execution loop (spec/44_step_execute.md): the dispatcher's operand
fetch is the step's, so each row does what its instruction does; how a step from `READY` ends; what the loop's
fuel and its starting total do not matter for; then the statements, each from these. -/

namespace Sys2Proof.Machine

/-! ## The operand the dispatcher fetches -/

/-- The two bytes behind the opcode byte at `pc`, as one little-endian word (R50). -/
def State.operandWord (s : State) : Word := wordOf (s.readByte (s.pc + 1)) (s.readByte (s.pc + 2))

/-- The operand of a mode whose operand bytes are the word's; a one-byte operand is the low byte (R52, R53). -/
def operandOf (w : Word) : Mode → Operand
  | .immediate => .value (loByte w)
  | .zeroPage => .address (.zeroPage (loByte w))
  | .zeroPageX => .address (.zeroPageX (loByte w))
  | .zeroPageY => .address (.zeroPageY (loByte w))
  | .absolute => .address (.absolute w)
  | .absoluteX => .address (.absoluteX w)
  | .absoluteY => .address (.absoluteY w)
  | .indirectX => .address (.indirectX (loByte w))
  | .indirectY => .address (.indirectY (loByte w))

theorem operandOf_eq_address {w : Word} {m : Mode} {form : AddrForm} (h : operandOf w m = .address form) :
    form.mode = m := by
  cases m <;> cases h <;> rfl

theorem operandOf_eq_value {w : Word} {m : Mode} {d : Byte} (h : operandOf w m = .value d) :
    m.format = .opD8 := by
  cases m <;> cases h
  rfl

/-- A one-byte operand fetched behind the opcode byte is the low byte of the operand word. -/
theorem fetchD8_fetchByte (f : Byte → Operand) (s : State) :
    fetchD8 f s.fetchByte.2 = (s.consume .opD8).map (f (loByte s.operandWord), ·) := by
  rw [State.operandWord, loByte_wordOf]
  rfl

theorem State.fetchWord_fetchByte (s : State) :
    s.fetchByte.2.fetchWord = (s.consume .opA16).map (s.operandWord, ·) := by
  rw [s.consume_opA16]
  by_cases h : s.pc = 0xFFFE
  · rw [if_pos h]
    exact State.fetchWord_last _ ((add_one_eq_last_iff s.pc).mpr h)
  · rw [if_neg h, State.fetchWord_ok _ (mt (add_one_eq_last_iff s.pc).mp h)]
    simp [State.fetchByte, State.operandWord, BitVec.add_assoc, Except.map]

theorem fetchA16_fetchByte (f : Word → Operand) (s : State) :
    fetchA16 f s.fetchByte.2 = (s.consume .opA16).map (f s.operandWord, ·) := by
  rw [fetchA16, s.fetchWord_fetchByte]
  cases s.consume .opA16 <;> rfl

/-- The operand fetched byte by byte through `pc` is the one in the window at `pc`, and leaves the same state (log
entry 13). -/
theorem fetchOperand_fetchByte (m : Mode) (s : State) :
    fetchOperand m s.fetchByte.2 = (s.consume m.format).map (operandOf s.operandWord m, ·) := by
  cases m with
  | immediate => exact fetchD8_fetchByte _ s
  | zeroPage => exact fetchD8_fetchByte (fun d => .address (.zeroPage d)) s
  | zeroPageX => exact fetchD8_fetchByte (fun d => .address (.zeroPageX d)) s
  | zeroPageY => exact fetchD8_fetchByte (fun d => .address (.zeroPageY d)) s
  | absolute => exact fetchA16_fetchByte _ s
  | absoluteX => exact fetchA16_fetchByte _ s
  | absoluteY => exact fetchA16_fetchByte _ s
  | indirectX => exact fetchD8_fetchByte (fun d => .address (.indirectX d)) s
  | indirectY => exact fetchD8_fetchByte (fun d => .address (.indirectY d)) s

/-! ## The rows of the dispatcher and the instructions -/

theorem dispatchLoad_value (r : Reg) {m : Mode} {d : Byte} {s : State}
    (h : operandOf s.operandWord m = .value d) : dispatchLoad m r s.fetchByte.2 = loadImmediate r d s := by
  rw [dispatchLoad, fetchOperand_fetchByte, h, operandOf_eq_value h]
  rfl

theorem dispatchLoad_address (r : Reg) {m : Mode} {form : AddrForm} {s : State}
    (h : operandOf s.operandWord m = .address form) : dispatchLoad m r s.fetchByte.2 = loadFrom r form s := by
  rw [dispatchLoad, loadFrom, fetchOperand_fetchByte, h, operandOf_eq_address h]
  cases s.consume m.format <;> rfl

theorem dispatchStore_address (op : Byte) (r : Reg) {m : Mode} {form : AddrForm} {s : State}
    (h : operandOf s.operandWord m = .address form) :
    dispatchStore op m r s.fetchByte.2 = storeTo r form s := by
  rw [dispatchStore, storeTo, fetchOperand_fetchByte, h, operandOf_eq_address h]
  cases s.consume m.format <;> rfl

theorem dispatchJsr_fetchByte (s : State) : dispatchJsr s.fetchByte.2 = execJsr s.operandWord s := by
  rw [dispatchJsr, execJsr, s.fetchWord_fetchByte]
  cases s.consume .opA16 <;> rfl

section Assembled

variable {m : Mode} {r : Reg} {w : Word} {i : Instr}

/-- The three Immediate loads of the table load their operand (R73). -/
theorem exec_of_assemble_load_value {d : Byte} (h : assemble .load m (some r) w = some i)
    (hx : operandOf w m = .value d) (s : State) : exec i s = loadImmediate r d s := by
  cases m <;> cases hx
  cases r <;> cases h <;> rfl

/-- Any other load a row assembles to is the family's load at its mode's operand, triple by triple (R55). -/
theorem exec_of_assemble_load_address {form : AddrForm} (h : assemble .load m (some r) w = some i)
    (hx : operandOf w m = .address form) (s : State) : exec i s = loadFrom r form s := by
  cases r <;> cases m <;> cases hx <;> cases h <;> rfl

/-- A store that a row assembles to is the family's store at its mode's operand; it has no Immediate mode (R83). -/
theorem exec_of_assemble_store (h : assemble .store m (some r) w = some i) :
    ∃ form, operandOf w m = .address form ∧ ∀ s, exec i s = storeTo r form s := by
  cases r <;> cases m <;> cases h <;> exact ⟨_, rfl, fun _ => rfl⟩

end Assembled

/-- A row does what the instruction it assembles to does (R150). -/
theorem dispatchEntry_of_assemble {e : OpcodeEntry} {s : State} {i : Instr}
    (h : assemble e.operation e.mode e.register s.operandWord = some i) :
    dispatchEntry e s.fetchByte.2 = exec i s := by
  obtain ⟨op, o, m, _ | r⟩ := e
  · cases o with
    | load => cases m <;> cases h
    | store => cases m <;> cases h
    | jsr =>
      cases m <;> cases h
      exact dispatchJsr_fetchByte s
  · cases o with
    | load =>
      cases hx : operandOf s.operandWord m with
      | value d => exact (dispatchLoad_value r hx).trans (exec_of_assemble_load_value h hx s).symm
      | address form => exact (dispatchLoad_address r hx).trans (exec_of_assemble_load_address h hx s).symm
    | store =>
      obtain ⟨form, hx, hexec⟩ := exec_of_assemble_store h
      exact (dispatchStore_address op r hx).trans (hexec s).symm
    | jsr => cases m <;> cases h

theorem dispatchStep_known {t : List OpcodeEntry} {e : OpcodeEntry} {s : State}
    (h : lookup t (s.readByte s.pc) = some e) (hwf : e.wellFormed = true) :
    dispatchStep t s = dispatchEntry e s.fetchByte.2 := by
  simp only [dispatchStep, State.fetchByte, h, hwf, if_true]

theorem dispatchStep_unknown {t : List OpcodeEntry} {s : State} (h : lookup t (s.readByte s.pc) = none) :
    dispatchStep t s = .fault (.unknownOpcode (s.readByte s.pc) s.pc) := by
  have hpc : s.pc + 1 - 1 = s.pc := by bv_omega
  simp only [dispatchStep, State.fetchByte, h, State.setPc_pc, hpc]

theorem step_eq_dispatchStep {s : State} (hs : s.status = .ready) : step s = dispatchStep opcodeTable s := by
  rcases step_ready_cases hs with ⟨e, i, he, hi, hx⟩ | ⟨hnone, hx⟩
  · rw [hx, dispatchStep_known he (row_wellFormed (lookup_some he).1), dispatchEntry_of_assemble hi.assembled]
  · rw [hx, dispatchStep_unknown hnone]

/-! ## How a step ends -/

theorem step_refused_of_not_ready {s : State} (h : s.status ≠ .ready) : ∃ r, step s = .refused r := by
  cases hs : s.status with
  | uninit => exact ⟨_, step_uninit hs⟩
  | ready => exact absurd hs h
  | faulted f => exact ⟨_, step_faulted hs⟩

theorem step_cycles {s t : State} (h : step s = .next t) : 2 ≤ t.cycles ∧ t.cycles ≤ 6 := by
  obtain ⟨-, _, _, -, -, hx⟩ := step_next h
  exact exec_cycles hx

theorem State.operandOutOfRange_iff {s : State} {e : OpcodeEntry}
    (h : lookup opcodeTable (s.readByte s.pc) = some e) :
    s.operandOutOfRange = true ↔ e.mode.format = .opA16 ∧ s.pc = 0xFFFE := by
  simp [State.operandOutOfRange, h, and_comm]

/-- All a step from `READY` can do, as one proposition about its outcome: the opcode byte is unknown, the operand
word is out of range, or the step completes. -/
def StepOutcome (s : State) (o : Result) : Prop :=
  (s.opcodeKnown = false ∧ o = .fault (.unknownOpcode (s.readByte s.pc) s.pc)) ∨
  (s.operandOutOfRange = true ∧ o = .fault (.wordAccessOutOfRange Config.lastAddress)) ∨
  (s.opcodeKnown = true ∧ s.operandOutOfRange = false ∧ ∃ t, o = .next t)

theorem step_outcome {s : State} (hs : s.status = .ready) : StepOutcome s (step s) := by
  rcases step_ready_cases hs with ⟨e, i, he, hi, hx⟩ | ⟨hnone, hx⟩
  · have hknown : s.opcodeKnown = true := by rw [State.opcodeKnown, he, Option.isSome_some]
    rw [hx]
    rcases exec_outcome i s with ⟨hf, hp, ho⟩ | ⟨hok, t, ho, -⟩
    · exact .inr (.inl ⟨(State.operandOutOfRange_iff he).mpr ⟨hi.mode ▸ hf, hp⟩, ho⟩)
    · rw [hi.mode, ← State.operandOutOfRange_iff he, Bool.not_eq_true] at hok
      exact .inr (.inr ⟨hknown, hok, t, ho⟩)
  · exact .inl ⟨by rw [State.opcodeKnown, hnone, Option.isSome_none], hx⟩

theorem State.canStep_iff (s : State) :
    s.canStep = true ↔ s.status = .ready ∧ s.opcodeKnown = true ∧ s.operandOutOfRange = false := by
  simp [State.canStep, and_assoc]

/-! ## The statements about the step -/

/-- Settles O49: an instruction keeps canonical memory and the status, and its cost is from 2 to 6. -/
theorem stepKeepsTheInvariant : Obligations.StepKeepsTheInvariant := step_keeps_Inv

/-- Settles O45: the row of the byte does what the decoded instruction does. -/
theorem stepIsTheDispatcherPseudocode : Obligations.StepIsTheDispatcherPseudocode := fun _ =>
  ⟨step_eq_dispatchStep, step_refused_of_not_ready, fun _ => step_cycles⟩

/-- Settles O46: of the three outcomes of a step from `READY`, one completes, and its condition is `canStep`. -/
theorem stepCompletesExactlyWhenItCan : Obligations.StepCompletesExactlyWhenItCan := by
  intro s
  rw [State.canStep_iff]
  constructor
  · rintro ⟨t, h⟩
    obtain ⟨hs, -⟩ := step_next h
    rcases step_outcome hs with ⟨-, ho⟩ | ⟨-, ho⟩ | ⟨hknown, hin, -⟩
    · cases h.symm.trans ho
    · cases h.symm.trans ho
    · exact ⟨hs, hknown, hin⟩
  · rintro ⟨hs, hknown, hin⟩
    rcases step_outcome hs with ⟨hunknown, -⟩ | ⟨hout, -⟩ | ⟨-, -, hnext⟩
    · simp [hknown] at hunknown
    · simp [hin] at hout
    · exact hnext

/-! ## The loop -/

/-- The end of a run with `c` cycles more in its total. -/
def RunEnd.addTotal (c : Nat) : RunEnd → RunEnd
  | .finished total s => .finished (c + total) s
  | .fatal f s => .fatal f s
  | .refused r s => .refused r s

/-- The loop stops where the total meets the budget, whatever the fuel (R152). -/
theorem runLoop_met {n total : Nat} (fuel : Nat) (s : State) (h : n ≤ total) :
    runLoop n fuel total s = .finished total s := by
  cases fuel with
  | zero => rfl
  | succ fuel => rw [runLoop, if_neg (Nat.not_lt.mpr h)]

section Loop

variable {n total : Nat} {s : State}

theorem runLoop_next (fuel : Nat) {t : State} (hlt : total < n) (h : step s = .next t) :
    runLoop n (fuel + 1) total s = runLoop n fuel (total + t.cycles) t := by
  simp only [runLoop, if_pos hlt, h]

theorem runLoop_fault (fuel : Nat) {f : Fault} (hlt : total < n) (h : step s = .fault f) :
    runLoop n (fuel + 1) total s = .fatal f (s.enterFatal f) := by
  simp only [runLoop, if_pos hlt, h]

theorem runLoop_refused (fuel : Nat) {r : Refusal} (hlt : total < n) (h : step s = .refused r) :
    runLoop n (fuel + 1) total s = .refused r s := by
  simp only [runLoop, if_pos hlt, h]

end Loop

/-- A total reached before the loop counts as budget already used (R152). -/
theorem runLoop_add (n c fuel total : Nat) (s : State) :
    runLoop n fuel (c + total) s = (runLoop (n - c) fuel total s).addTotal c := by
  induction fuel generalizing total s with
  | zero => rfl
  | succ fuel ih =>
    by_cases hlt : total < n - c
    · have hlt' : c + total < n := by omega
      cases h : step s with
      | next t => rw [runLoop_next _ hlt h, runLoop_next _ hlt' h, Nat.add_assoc, ih]
      | fault f => rw [runLoop_fault _ hlt h, runLoop_fault _ hlt' h, RunEnd.addTotal]
      | refused r => rw [runLoop_refused _ hlt h, runLoop_refused _ hlt' h, RunEnd.addTotal]
    · rw [runLoop_met _ s (Nat.not_lt.mp hlt), runLoop_met _ s (by omega), RunEnd.addTotal]

/-- Fuel that covers what is left of the budget is never used up: every step costs at least two cycles (R155, log
entry 21). -/
theorem runLoop_fuel {n total fuel fuel' : Nat} (s : State) (h : n ≤ total + fuel) (h' : n ≤ total + fuel') :
    runLoop n fuel total s = runLoop n fuel' total s := by
  induction fuel generalizing fuel' total s with
  | zero => rw [runLoop_met 0 s (by omega), runLoop_met fuel' s (by omega)]
  | succ fuel ih =>
    by_cases hlt : total < n
    · obtain ⟨fuel', rfl⟩ : ∃ k, fuel' = k + 1 := Nat.exists_eq_add_one.mpr (by omega)
      cases hx : step s with
      | next t =>
        have hcost := (step_cycles hx).1
        rw [runLoop_next _ hlt hx, runLoop_next _ hlt hx]
        exact ih t (by omega) (by omega)
      | fault f => rw [runLoop_fault _ hlt hx, runLoop_fault _ hlt hx]
      | refused r => rw [runLoop_refused _ hlt hx, runLoop_refused _ hlt hx]
    · rw [runLoop_met _ s (Nat.not_lt.mp hlt), runLoop_met _ s (Nat.not_lt.mp hlt)]

/-! ## A run as a step and the rest -/

theorem execute_zero {s : State} (hs : s.status = .ready) : execute 0 s = .finished 0 s := execute_ready 0 hs

theorem execute_fault {n : Nat} {s : State} {f : Fault} (hs : s.status = .ready) (hn : 0 < n)
    (h : step s = .fault f) : execute n s = .fatal f (s.enterFatal f) := by
  obtain ⟨fuel, rfl⟩ := Nat.exists_eq_add_one.mpr hn
  rw [execute_ready _ hs, runLoop_fault _ hn h]

/-- A step, then the rest: the fuel left still covers the budget left (R155). -/
theorem execute_next {n : Nat} {s t : State} (hs : s.status = .ready) (hn : 0 < n) (h : step s = .next t) :
    execute n s = (execute (n - t.cycles) t).addTotal t.cycles := by
  obtain ⟨fuel, rfl⟩ := Nat.exists_eq_add_one.mpr hn
  have hcost := (step_cycles h).1
  have hfuel : runLoop (fuel + 1 - t.cycles) fuel 0 t =
      runLoop (fuel + 1 - t.cycles) (fuel + 1 - t.cycles) 0 t := runLoop_fuel t (by omega) (by omega)
  calc execute (fuel + 1) s
      = runLoop (fuel + 1) fuel (t.cycles + 0) t := by
        rw [execute_ready _ hs, runLoop_next _ hn h, Nat.add_comm 0 t.cycles]
    _ = (runLoop (fuel + 1 - t.cycles) fuel 0 t).addTotal t.cycles := runLoop_add _ _ _ _ t
    _ = (execute (fuel + 1 - t.cycles) t).addTotal t.cycles := by
        rw [hfuel, execute_ready _ (step_next_ready h)]

/-- The two ends of R155 for a budget `n`: the budget met, overshot by at most 5, in `READY`; or fatal. -/
def MeetsBudgetOrIsFatal (n : Nat) (e : RunEnd) : Prop :=
  (∃ total t, e = .finished total t ∧ n ≤ total ∧ total ≤ n + 5 ∧ t.status = .ready) ∨
  (∃ f t, e = .fatal f t ∧ t.status = .faulted f)

/-- A first step of cost `c` that does not meet the budget leaves the rest to the rest of the run (R153). -/
theorem MeetsBudgetOrIsFatal.addTotal {n c : Nat} {e : RunEnd} (hc : c ≤ n)
    (h : MeetsBudgetOrIsFatal (n - c) e) : MeetsBudgetOrIsFatal n (e.addTotal c) := by
  rcases h with ⟨total, t, rfl, hmet, hover, ht⟩ | ⟨f, t, rfl, ht⟩
  · exact .inl ⟨c + total, t, rfl, by omega, by omega, ht⟩
  · exact .inr ⟨f, t, rfl, ht⟩

theorem execute_meets_budget_or_is_fatal (n : Nat) (s : State) (hs : s.status = .ready) (hn : 0 < n) :
    MeetsBudgetOrIsFatal n (execute n s) := by
  induction n using Nat.strong_induction_on generalizing s with
  | _ n ih =>
    rcases step_outcome hs with ⟨-, ho⟩ | ⟨-, ho⟩ | ⟨-, -, t, ho⟩
    · exact .inr ⟨_, _, execute_fault hs hn ho, rfl⟩
    · exact .inr ⟨_, _, execute_fault hs hn ho, rfl⟩
    · obtain ⟨hlow, hhigh⟩ := step_cycles ho
      have ht := step_next_ready ho
      rw [execute_next hs hn ho]
      by_cases hlt : t.cycles < n
      · exact (ih (n - t.cycles) (by omega) t ht (by omega)).addTotal hlt.le
      · rw [Nat.sub_eq_zero_of_le (Nat.not_lt.mp hlt), execute_zero ht]
        exact .inl ⟨t.cycles, t, rfl, Nat.not_lt.mp hlt, by omega, ht⟩

/-! ## The statements about the loop -/

/-- Settles O52. -/
theorem executeIsAStepThenTheRest : Obligations.ExecuteIsAStepThenTheRest := by
  refine fun n s hs hn => ⟨fun f => execute_fault hs hn, fun t h => ?_⟩
  rw [execute_next hs hn h]
  cases execute (n - t.cycles) t <;> rfl

/-- Settles O53, by strong induction on the budget: a step meets it, overshooting by at most 5, or leaves less. -/
theorem everyRunMeetsItsBudgetOrIsFatal : Obligations.EveryRunMeetsItsBudgetOrIsFatal :=
  execute_meets_budget_or_is_fatal

/-- Settles O51. -/
theorem executeZeroDoesNothing : Obligations.ExecuteZeroDoesNothing := fun _ => execute_zero

end Sys2Proof.Machine

/-! PROOFS. The statements about the fatal conditions (spec/60_exceptions.md): when an instruction is fatal, then
which condition a step raises, what the operation leaves of the state, and the cause codes. -/

namespace Sys2Proof

/-! ## When an instruction is fatal -/

/-- The 3-byte instructions are those with an operand word (R50, R54). -/
theorem Instr.length_eq_three_iff (i : Instr) : i.length = 3 ↔ i.mode.format = .opA16 := by
  rw [Instr.length]
  cases i.mode.format <;> decide

namespace Machine

theorem exec_fault_iff {i : Instr} {s : State} {f : Fault} :
    exec i s = .fault f ↔ i.length = 3 ∧ s.pc = 0xFFFE ∧ f = .wordAccessOutOfRange 0xFFFF := by
  rw [Instr.length_eq_three_iff]
  rcases exec_outcome i s with ⟨hf, hp, ho⟩ | ⟨hok, t, ho, -⟩
  · rw [ho]
    constructor
    · rintro ⟨⟩
      exact ⟨hf, hp, rfl⟩
    · rintro ⟨-, -, rfl⟩
      rfl
  · rw [ho]
    constructor
    · nofun
    · rintro ⟨hf, hp, -⟩
      exact absurd ⟨hf, hp⟩ hok

/-- Every instruction has a meaning: it completes or is fatal. -/
theorem exec_ne_refused (i : Instr) (s : State) (r : Refusal) : exec i s ≠ .refused r := by
  rcases exec_outcome i s with ⟨-, -, ho⟩ | ⟨-, t, ho, -⟩ <;> rw [ho] <;> nofun

/-! ## Which fatal condition a step raises -/

/-- An unknown byte has no operand: the two fatal conditions of a step exclude each other (R176). -/
theorem State.operandOutOfRange_of_unknown {s : State} (h : s.opcodeKnown = false) :
    s.operandOutOfRange = false := by
  rw [State.opcodeKnown, Option.isSome_eq_false_iff, Option.isNone_iff_eq_none] at h
  simp [State.operandOutOfRange, h]

theorem step_fault_ready {s : State} {f : Fault} (h : step s = .fault f) : s.status = .ready := by
  by_contra hs
  obtain ⟨r, hr⟩ := step_refused_of_not_ready hs
  cases h.symm.trans hr

/-- The fatal conditions of a step from `READY`, each with its cause. -/
theorem step_ready_fault_iff {s : State} {f : Fault} (hs : s.status = .ready) :
    step s = .fault f ↔
      (s.opcodeKnown = false ∧ f = .unknownOpcode (s.readByte s.pc) s.pc) ∨
      (s.operandOutOfRange = true ∧ f = .wordAccessOutOfRange 0xFFFF) := by
  rcases step_outcome hs with ⟨hunknown, ho⟩ | ⟨hout, ho⟩ | ⟨hknown, hin, t, ho⟩
  · simp [ho, hunknown, State.operandOutOfRange_of_unknown hunknown, eq_comm]
  · have hknown : s.opcodeKnown ≠ false := fun hu => by
      simp [State.operandOutOfRange_of_unknown hu] at hout
    simp [ho, hknown, hout, Config.lastAddress, eq_comm]
  · simp [ho, hknown, hin]

/-! ## What a fatal step leaves, and the cause codes -/

theorem operate_step_fault {s : State} {f : Fault} (h : step s = .fault f) :
    operate .step s = (.fatal f, s.enterFatal f) := by
  simp only [operate, h]

section Codes

variable (f : Fault)

theorem Fault.code_eq_one_iff : f.code = 1 ↔ ∃ op addr, f = .unknownOpcode op addr := by
  cases f <;> simp [Fault.code]

theorem Fault.code_eq_two_iff : f.code = 2 ↔ ∃ op, f = .illegalCombination op := by
  cases f <;> simp [Fault.code]

theorem Fault.code_eq_three_iff : f.code = 3 ↔ ∃ addr, f = .wordAccessOutOfRange addr := by
  cases f <;> simp [Fault.code]

end Codes

/-- A step's cause is coded 1 or 3: code 2 needs an illegal row, and the table has none (R58). -/
theorem step_fault_code {s : State} {f : Fault} (h : step s = .fault f) : f.code = 1 ∨ f.code = 3 := by
  cases f with
  | unknownOpcode op addr => exact .inl rfl
  | illegalCombination op => exact absurd h (step_ne_illegalCombination s op)
  | wordAccessOutOfRange addr => exact .inr rfl

/-! ## The statements -/

/-- Settles O43: of the two ways an instruction can end, one is fatal, and its condition is the statement's. -/
theorem instructionsFaultOnlyAtTheTop : Obligations.InstructionsFaultOnlyAtTheTop := fun i s =>
  ⟨fun _ => exec_fault_iff, exec_ne_refused i s⟩

/-- Settles O47: only a step from `READY` is fatal, and there each condition is its own outcome. -/
theorem stepFaultsExactlyWhen : Obligations.StepFaultsExactlyWhen := fun _ _ =>
  ⟨fun h => ⟨step_fault_ready h, (step_ready_fault_iff (step_fault_ready h)).mp h⟩,
    fun ⟨hs, h⟩ => (step_ready_fault_iff hs).mpr h⟩

/-- Settles O48. -/
theorem fatalStepChangesOnlyPcAndStatus : Obligations.FatalStepChangesOnlyPcAndStatus :=
  ⟨fun _ _ h => ⟨operate_step_fault h, step_fault_code h⟩,
    fun f => ⟨f.code_eq_one_iff, f.code_eq_two_iff, f.code_eq_three_iff⟩⟩

end Machine

end Sys2Proof

/-! PROOFS. The statement about reset (spec/70_reset_and_hazards.md): its answer and the state it leaves, whatever
the state before. -/

namespace Sys2Proof.Machine

/-- Reset answers without looking at the state, its status included (R200). -/
theorem operate_reset (s : State) : operate .reset s = (.done, State.reset) := rfl

/-- Reset memory lists no byte, so every address reads as zero (R26). -/
theorem State.readByte_reset (addr : Word) : State.reset.readByte addr = 0x00 := rfl

/-- Settles O1: the state after is `State.reset`, whose registers and status are those it is defined with. -/
theorem resetGivesTheStatedState : Obligations.ResetGivesTheStatedState := fun s =>
  ⟨State.reset, operate_reset s, rfl, rfl, rfl, rfl, rfl, State.getFlag_reset, State.readByte_reset, rfl, rfl⟩

end Sys2Proof.Machine
